-- ==== Sys2Proof/Word.lean ====
section
/-! DEFINITION. The cells of the block: a digit (R20), a byte of the string ports, a segment mask (R150), a register of
14 digits (R21), and reading one digit of a register (R9). -/

namespace Sys2Proof

/-- R20: a digit is a 4-bit storage cell. A well-formed digit is 0 to 9; the cell itself can hold 10 to 15 (R9), which
only a corrupted register file does. -/
abbrev Digit := BitVec 4

/-- A byte on the ports sdata and sout (R44). -/
abbrev Byte := BitVec 8

/-- R150: a segment mask, one bit per segment a to g (bits 0 to 6) and the decimal point (bit 7). -/
abbrev Mask := BitVec 8

/-- R43: a register as it travels on the 56-bit ports wdata and rdata. -/
abbrev PackedWord := BitVec 56

/-- R21: a register is an ordered sequence of 14 digits, index 0 the exponent ones digit, index 13 the mantissa sign. -/
abbrev Reg := Vector Digit 14

/-- R9: `r[i]`, digit i of a register. Every rule uses indices 0 to 13 only. -/
def Reg.digit (r : Reg) (i : Nat) : Digit := r[i]?.getD 0#4

/-- A register with digit i replaced: `C[i] <- v` in the pseudocode of R123 to R129. -/
def Reg.setDigit (r : Reg) (i : Nat) (v : Digit) : Reg := r.setIfInBounds i v

/-- R21: a default-constructed register has every digit 0. -/
def Reg.zero : Reg := Vector.replicate 14 0#4

/-- R24: the seven registers of the register file, a closed set. -/
inductive RegId where
  | a   -- General-A, the raw mantissa input of canonicalization
  | b   -- General-B, the stop mask
  | x   -- the display register
  | y   -- stack-like math register
  | z   -- stack-like math register
  | t   -- stack-like math register
  | s   -- scratch register
  deriving DecidableEq, Repr

end Sys2Proof
end

