-- ==== Sys2Proof/Syntax.lean ====
section
/-! DEFINITION. The commands of the block, one constructor per row of spec/opcode_table.json, in the assembly form of
R69, and a command as it stands on the input ports (R60). -/

namespace Sys2Proof

/-- R62, R69: the seven commands with their operands. A register operand is one of the seven names (R63); SET and SETS
carry the data of their ports wdata and sdata; dp is the decimal-point position (R64). -/
inductive Instr where
  | get (r : RegId)                          -- R170
  | set (r : RegId) (wdata : PackedWord)     -- R172
  | gets (r : RegId)                         -- R107
  | sets (r : RegId) (sdata : List Byte)     -- R105
  | canon                                    -- R121
  | masks (dp : Nat)                         -- R156
  | display (dp : Nat)                       -- R158
  deriving DecidableEq, Repr

/-- R60: the input ports of one command, as the host presents them: the command word, the packed data word, and the
byte string, first byte first. -/
structure Command where
  cmd   : BitVec 8
  wdata : PackedWord
  sdata : List Byte
  deriving DecidableEq, Repr

/-- R60: the port slen, the number of bytes on sdata. It is no second home of that number (assumption 8). -/
def Command.slen (c : Command) : BitVec 8 := BitVec.ofNat 8 c.sdata.length

end Sys2Proof
end

