-- ==== Sys2Proof/WellFormed.lean ====
section
/-! DEFINITION. Which instructions an encoding exists for, and which commands the ports can present. The data of SET
(R172) and SETS (R105) are not checked here: those commands themselves answer ILLEGAL and FORMAT_ERROR. -/

namespace Sys2Proof

/-- R60: slen is 8 bits, so sdata holds at most 255 bytes. -/
abbrev Command.WellFormed (c : Command) : Prop := c.sdata.length ≤ 255

/-- R64: a decimal-point operand is 1 to 10. -/
abbrev dpLegal (dp : Nat) : Prop := 1 ≤ dp ∧ dp ≤ 10

/-- The instructions that some command word and ports stand for: a decimal-point position 1 to 10 (R64), a string the
slen port can count (R60). -/
def Instr.WellFormed : Instr → Bool
  | .get _ => true
  | .set _ _ => true
  | .gets _ => true
  | .sets _ str => decide (str.length ≤ 255)
  | .canon => true
  | .masks dp => decide (dpLegal dp)
  | .display dp => decide (dpLegal dp)

end Sys2Proof
end

