-- ==== Sys2Proof/Decode.lean ====
section
/-! DEFINITION. The decoder, from the input ports to an instruction or a named rejection (R61 to R67), and the encoder,
from the same table (R62, R69). -/

namespace Sys2Proof

/-- Why a command word is illegal: the bullets of R67 that concern the word (its last bullet, SET's data, is execSet's). -/
inductive DecodeError where
  | reservedOpcode (op : BitVec 4)    -- op 0x0 or 0x8 to 0xF
  | noSuchRegister (id : BitVec 4)    -- GET, SET, GETS, SETS with arg 7 to 15
  | canonOperand (arg : BitVec 4)     -- CANON with arg other than 0
  | noSuchPosition (dp : BitVec 4)    -- MASKS, DISPLAY with arg 0 or 11 to 15
  deriving DecidableEq, Repr

/-- R61: op is bits 7:4 of the command word. -/
def Command.op (c : Command) : BitVec 4 := c.cmd.extractLsb' 4 4

/-- R61: arg is bits 3:0 of the command word. -/
def Command.arg (c : Command) : BitVec 4 := c.cmd.extractLsb' 0 4

/-- R24, R63: the register identifier of a register. -/
def RegId.code : RegId → BitVec 4
  | .a => 0 | .b => 1 | .x => 2 | .y => 3 | .z => 4 | .t => 5 | .s => 6

/-- R63: the register an identifier names; 7 to 15 name none (R42). -/
def RegId.ofCode (id : BitVec 4) : Option RegId :=
  match id.toNat with
  | 0 => some .a
  | 1 => some .b
  | 2 => some .x
  | 3 => some .y
  | 4 => some .z
  | 5 => some .t
  | 6 => some .s
  | _ => none

/-- A register operand taken from arg (R63), or its rejection (R67). -/
def decodeReg (arg : BitVec 4) (k : RegId → Instr) : Except DecodeError Instr :=
  match RegId.ofCode arg with
  | some r => .ok (k r)
  | none => .error (.noSuchRegister arg)

/-- A decimal-point operand taken from arg (R64), or its rejection (R67). -/
def decodeDp (arg : BitVec 4) (k : Nat → Instr) : Except DecodeError Instr :=
  if dpLegal arg.toNat then .ok (k arg.toNat) else .error (.noSuchPosition arg)

/-- R62, R66: the decoder. The opcode alone says which data port is read. -/
def decode (c : Command) : Except DecodeError Instr :=
  match c.op.toNat with
  | 1 => decodeReg c.arg .get
  | 2 => decodeReg c.arg (fun r => .set r c.wdata)
  | 3 => decodeReg c.arg .gets
  | 4 => decodeReg c.arg (fun r => .sets r c.sdata)
  | 5 => if c.arg = 0 then .ok .canon else .error (.canonOperand c.arg)
  | 6 => decodeDp c.arg .masks
  | 7 => decodeDp c.arg .display
  | _ => .error (.reservedOpcode c.op)

/-- A command word with no data on the other input ports. -/
def Command.ofWord (w : BitVec 8) : Command := { cmd := w, wdata := 0, sdata := [] }

/-- The instruction read from an opcode-table word: a command word is 8 bits (R61), and the data ports, to which the
table gives no bits, carry zeros (assumption 14). -/
def decodeTableWord (nbits w : Nat) : Option Instr :=
  if nbits = 8 ∧ w < 2 ^ 8 then (decode (Command.ofWord (BitVec.ofNat 8 w))).toOption else none

/-- R61: the command word of an opcode and an argument. -/
def cmdWord (op arg : BitVec 4) : BitVec 8 := op ++ arg

/-- R62: the opcode of an instruction. -/
def Instr.opcode : Instr → BitVec 4
  | .get _ => 1
  | .set _ _ => 2
  | .gets _ => 3
  | .sets _ _ => 4
  | .canon => 5
  | .masks _ => 6
  | .display _ => 7

/-- R69: the command word of an instruction and its data; a port the command does not use carries zeros. -/
def encode : Instr → Command
  | .get r => { cmd := cmdWord 1 r.code, wdata := 0, sdata := [] }
  | .set r w => { cmd := cmdWord 2 r.code, wdata := w, sdata := [] }
  | .gets r => { cmd := cmdWord 3 r.code, wdata := 0, sdata := [] }
  | .sets r str => { cmd := cmdWord 4 r.code, wdata := 0, sdata := str }
  | .canon => { cmd := cmdWord 5 0, wdata := 0, sdata := [] }
  | .masks dp => { cmd := cmdWord 6 (BitVec.ofNat 4 dp), wdata := 0, sdata := [] }
  | .display dp => { cmd := cmdWord 7 (BitVec.ofNat 4 dp), wdata := 0, sdata := [] }

end Sys2Proof
end

