-- ==== Sys2Proof/Config.lean ====
section
/-! DEFINITION. What an implementation fixes (R8: the three named parameters) and the free values: what the spec leaves
without a value. -/

namespace Sys2Proof

/-- R8, R125: B_MASK_CURSOR, the index the canonicalizer's stop mask is read at. -/
inductive MaskCursor where
  | dest   -- at the destination index (the default)
  | src    -- at the source index
  deriving DecidableEq, Repr

/-- R8, R128, R129: NEG_EXP_SIGN, how the canonicalizer sets X[2] for a negative exponent. -/
inductive NegExpSign where
  | borrowOut   -- 9 exactly when the tens digit borrows (the default)
  | tensZero    -- 0 exactly when the computed tens digit is 0
  deriving DecidableEq, Repr

/-- R30, R151: SEG_TABLE, thirteen masks: Seg(0) to Seg(9), Seg(Point), Seg(Minus), Seg(Blank). -/
structure SegTable where
  digit : Vector Mask 10
  point : Mask
  minus : Mask
  blank : Mask
  deriving DecidableEq, Repr

/-- R8: the parameters the spec leaves to the implementation. A machine carries one value of them and no command, and no
reset, changes it (R30). -/
structure Config where
  maskCursor : MaskCursor
  negExpSign : NegExpSign
  seg        : SegTable
  deriving DecidableEq, Repr

/-- R151: what every SEG_TABLE meets, in the rule's order: ten distinct nonzero digit masks; Blank is 0; Point is the
decimal-point bit alone; no digit mask and no Minus has bit 7; Minus is nonzero and no digit mask. -/
abbrev SegTable.WellFormed (t : SegTable) : Prop :=
  (∀ i : Fin 10, t.digit[i] ≠ 0#8 ∧ ∀ j : Fin 10, t.digit[i] = t.digit[j] → i = j) ∧
  t.blank = 0x00#8 ∧
  t.point = 0x80#8 ∧
  (∀ i : Fin 10, t.digit[i].getLsbD 7 = false) ∧ t.minus.getLsbD 7 = false ∧
  t.minus ≠ 0#8 ∧ ∀ i : Fin 10, t.minus ≠ t.digit[i]

/-- FREE VALUE (assumption 6). SEG_TABLE has no entry for a cell value 10 to 15, so the spec states no mask for a
display position whose digit of X is corrupted. The mask is a function of X, dp and the position, since R154 makes the
masks a pure function of X and dp. Unreachable from reset (R25). -/
opaque Config.nonDigitMask : Reg → Nat → Nat → Mask

/-- FREE VALUE (assumption 7). R102: Format is applied only to registers whose digits are 0 to 9, so the spec states no
character for a corrupted digit. The byte is a function of the register and the place in the string, since reading has
no side effect and repeats (R49). Unreachable from reset (R25). -/
opaque Config.nonDigitChar : Reg → Nat → Byte

end Sys2Proof
end

