-- ==== Sys2Proof/Machine/Operands.lean ====
section
/-! DEFINITION. The operand and result forms: the packed word (R43, R65, R170), the decimal string (R100 to R102), and
which register values are legal (R20, R65). -/

namespace Sys2Proof

/-- R25, R65: every digit of a register value is 0 to 9. -/
abbrev Reg.IsDecimal (r : Reg) : Prop := ∀ i < 14, (r.digit i).toNat ≤ 9

/-- R43, R65: `v[i] = wdata[4i+3:4i]`. -/
def Reg.unpack (w : PackedWord) : Reg := Vector.ofFn fun i : Fin 14 => w.extractLsb' (4 * i) 4

/-- R43, R170: `rdata = {v[13], v[12], ..., v[0]}`. -/
def Reg.pack (r : Reg) : PackedWord :=
  r.digit 13 ++ r.digit 12 ++ r.digit 11 ++ r.digit 10 ++ r.digit 9 ++ r.digit 8 ++ r.digit 7 ++
    r.digit 6 ++ r.digit 5 ++ r.digit 4 ++ r.digit 3 ++ r.digit 2 ++ r.digit 1 ++ r.digit 0

/-- R100: an ASCII digit, 0x30 to 0x39. -/
abbrev asciiDigit (c : Byte) : Prop := 0x30 ≤ c.toNat ∧ c.toNat ≤ 0x39

/-- R101: Parse. `none` is FormatError: the byte string is not 14 ASCII digits. -/
def parse (bytes : List Byte) : Option Reg :=
  if bytes.length = 14 ∧ ∀ c ∈ bytes, asciiDigit c then
    some (Vector.ofFn fun i : Fin 14 => BitVec.ofNat 4 ((bytes.getD (13 - i) 0).toNat - 0x30))
  else none

/-- R12, R102: `out[k] = 0x30 + r[13-k]`. A cell that holds no digit has no stated character: a free value
(assumption 7). -/
def formatByte (r : Reg) (k : Nat) : Byte :=
  let d := r.digit (13 - k)
  if d.toNat ≤ 9 then BitVec.ofNat 8 (0x30 + d.toNat) else Config.nonDigitChar r k

/-- R102: Format. -/
def format (r : Reg) : Vector Byte 14 := Vector.ofFn fun k : Fin 14 => formatByte r k

end Sys2Proof
end

