-- ==== Sys2Proof/Machine/ResetValues.lean ====
section
/-! DEFINITION. The reset value of each register (R32 to R34) and the default of each parameter (R8, R152). -/

namespace Sys2Proof.Machine

/-- R32 to R34: A, X, Y, Z, T and S reset to all zeros, B to "00000000000099". The list is digit 0 first, so the two
exponent digits of B stand first. -/
def resetReg : RegId → Reg
  | .b => #v[9, 9, 0, 0, 0, 0, 0, 0, 0, 0, 0, 0, 0, 0]
  | .a => Reg.zero
  | .x => Reg.zero
  | .y => Reg.zero
  | .z => Reg.zero
  | .t => Reg.zero
  | .s => Reg.zero

/-- R152: the default SEG_TABLE (assumption 11). -/
def defaultSegTable : SegTable where
  digit := #v[0x3F, 0x06, 0x5B, 0x4F, 0x66, 0x6D, 0x7D, 0x07, 0x7F, 0x6F]
  point := 0x80
  minus := 0x40
  blank := 0x00

/-- R8: the default of each parameter. -/
def defaultConfig : Config where
  maskCursor := .dest
  negExpSign := .borrowOut
  seg := defaultSegTable

end Sys2Proof.Machine
end

