-- ==== Sys2Proof/Machine/State.lean ====
section
/-! DEFINITION. The state of the machine: the block's registers and flag (10_state.md), the parameters it was built with,
the inputs its host has still to present, and the response on its output ports; and the state after reset. -/

namespace Sys2Proof.Machine

/-- R200: the status codes the block produces. -/
inductive Status where
  | ok                   -- 0
  | formatError          -- 1
  | invariantViolation   -- 2
  | illegal              -- 3
  | faulted              -- 4
  deriving DecidableEq, Repr

/-- R60: the output ports of one command. -/
structure Response where
  status : Status
  rdata  : PackedWord
  sout   : Vector Byte 14
  masks  : Vector Mask 15
  deriving DecidableEq, Repr

/-- What the host can do to the block: present a command (R60), or raise the reset signal between two commands (R240). -/
inductive HostInput where
  | command (c : Command)
  | resetSignal
  deriving DecidableEq, Repr

/-- R24: the register file, seven registers of 14 digits. -/
structure RegFile where
  a : Reg
  b : Reg
  x : Reg
  y : Reg
  z : Reg
  t : Reg
  s : Reg
  deriving DecidableEq, Repr

/-- The machine between two steps. `rf` and `fault` are all the state the spec gives the block (the state summary of
10_state.md); `config` holds its constants; `inputs` is the host's side, what it will do next, first thing first
(assumption 1: the block itself has no queue, R250); `response` is what the output ports carry (assumption 4). -/
structure State where
  rf       : RegFile
  fault    : Bool
  config   : Config
  inputs   : List HostInput
  response : Option Response
  deriving DecidableEq, Repr

/-- The reasons a step can stop with a fault: none. Every error of the block is the status of a response, after which it
takes the next command (R206, R209), and STAT.FAULT is state (R205, assumption 10). Nothing raises one; safe. -/
inductive Fault where
  deriving DecidableEq, Repr

/-- The reasons a step can be refused. -/
inductive Refusal where
  /-- Raised by exec for an instruction with no meaning yet; no instruction is in that case. Safe: the step stops. -/
  | notModelled (mnemonic : String)
  deriving DecidableEq, Repr

/-- The outcome of a step. -/
abbrev Result := Host.Outcome State Fault Refusal

/-- R240: every register at its reset value (R32 to R34). -/
def RegFile.reset : RegFile where
  a := resetReg .a
  b := resetReg .b
  x := resetReg .x
  y := resetReg .y
  z := resetReg .z
  t := resetReg .t
  s := resetReg .s

/-- R32 to R35, R240: the machine right after reset, with the parameters at their defaults (R8), no command presented
and no response given yet. -/
def State.reset : State where
  rf := RegFile.reset
  fault := false
  config := defaultConfig
  inputs := []
  response := none

end Sys2Proof.Machine
end

