-- ==== Sys2Proof/Machine/Ops.lean ====
section
/-! DEFINITION. The shared operations: reading and writing a register (R11), ending a command with a response (R12,
R60), raising an error (R200 to R206: the block's whole exception mechanism, R209) and the reset signal (R240). There is
no return from an exception (R210). -/

namespace Sys2Proof.Machine

/-- R11: `RF[r]`. -/
def RegFile.get (f : RegFile) : RegId → Reg
  | .a => f.a | .b => f.b | .x => f.x | .y => f.y | .z => f.z | .t => f.t | .s => f.s

/-- R11, R41: `RF[r] <- v`, all 14 digits at once. -/
def RegFile.set (f : RegFile) : RegId → Reg → RegFile
  | .a, v => { f with a := v }
  | .b, v => { f with b := v }
  | .x, v => { f with x := v }
  | .y, v => { f with y := v }
  | .z, v => { f with z := v }
  | .t, v => { f with t := v }
  | .s, v => { f with s := v }

/-- The value of a register in a state. -/
def State.reg (s : State) (r : RegId) : Reg := s.rf.get r

/-- A state with one register replaced. -/
def State.setReg (s : State) (r : RegId) (v : Reg) : State := { s with rf := s.rf.set r v }

/-- R200: the 3-bit code on the status port. -/
def Status.code : Status → BitVec 3
  | .ok => 0
  | .formatError => 1
  | .invariantViolation => 2
  | .illegal => 3
  | .faulted => 4

/-- R60, R201: a response that carries no data; every result port is zero. -/
def Response.bare (e : Status) : Response where
  status := e
  rdata := 0
  sout := Vector.replicate 14 0
  masks := Vector.replicate 15 0

/-- A state whose output ports carry a response. -/
def State.answer (s : State) (r : Response) : State := { s with response := some r }

/-- R12: `respond(OK, none)`. -/
def respondOk (s : State) : Result := .next (s.answer (Response.bare .ok))

/-- R12: `respond(OK, rdata = w)`. -/
def respondRdata (w : PackedWord) (s : State) : Result := .next (s.answer { Response.bare .ok with rdata := w })

/-- R12: `respond(OK, sout = str)`. -/
def respondSout (str : Vector Byte 14) (s : State) : Result :=
  .next (s.answer { Response.bare .ok with sout := str })

/-- R12: `respond(OK, masks = m)`. -/
def respondMasks (m : Vector Mask 15) (s : State) : Result := .next (s.answer { Response.bare .ok with masks := m })

/-- R12, R206: `raise E`. The command ends with the error's status and no data, and every piece of state is unchanged. -/
def raise (e : Status) (s : State) : Result := .next (s.answer (Response.bare e))

/-- R203: an invariant violation is raised with STAT.FAULT set; no register changes. -/
def raiseInvariantViolation (s : State) : Result := raise .invariantViolation { s with fault := true }

/-- R205, R207: the first check of every command: with STAT.FAULT set it answers FAULTED and does nothing else. -/
def unlessFaulted (s : State) (k : State → Result) : Result := if s.fault then raise .faulted s else k s

/-- R67, R204, R207: a command whose word is illegal, for whichever reason: FAULTED if STAT.FAULT is set, else ILLEGAL. -/
def execIllegal (_reason : DecodeError) (s : State) : Result := unlessFaulted s (raise .illegal)

/-- R240: the reset signal. Every piece of the block's state takes its reset value in one step; the parameters are
constants (R30) and the host's further inputs are the host's; no response stands on the ports. -/
def takeReset (s : State) : Result := .next { State.reset with config := s.config, inputs := s.inputs }

/-- The host presents nothing: the block does nothing (assumption 5). -/
def idle (s : State) : Result := .next s

end Sys2Proof.Machine
end

