-- ==== Sys2Proof/Machine/Flags.lean ====
section
/-! DEFINITION. The one flag, STAT.FAULT (R28): the check that sets it (R122). There are no condition codes (R29). -/

namespace Sys2Proof.Machine

/-- R122: all 28 digits of A and B are 0 to 9. -/
abbrev State.InputDigitsOk (s : State) : Prop := (s.reg .a).IsDecimal ∧ (s.reg .b).IsDecimal

/-- R122, R203: CheckDigits, made once, before any other step of CANON or DISPLAY: a digit above 9 in A or B is an
invariant violation. -/
def checkDigits (s : State) (k : State → Result) : Result :=
  if s.InputDigitsOk then k s else raiseInvariantViolation s

end Sys2Proof.Machine
end

