-- ==== Sys2Proof/Machine/Canonicalizer.lean ====
section
/-! DEFINITION. The canonicalizer and CANON (41_canonicalizer.md). The cursors, the register C and the borrows live in
these functions only (R31). -/

namespace Sys2Proof.Machine

/-- R123: C starts with every digit 0; then C[13] is 0 if A[13] = 0 and 9 otherwise. -/
def initC (a : Reg) : Reg := Reg.zero.setDigit 13 (if a.digit 13 = 0 then 0 else 9)

/-- R124: SkipLeadingZeros, from the given cursor: move down while the cursor is at 4 or more and its digit is 0. -/
def skipLeadingZeros (a : Reg) : Nat → Nat
  | 0 => 0
  | s + 1 => if 4 ≤ s + 1 ∧ a.digit (s + 1) = 0 then skipLeadingZeros a s else s + 1

/-- R125: MaskDigit(B, s, d), under B_MASK_CURSOR. -/
def maskDigit (m : MaskCursor) (b : Reg) (s d : Nat) : Digit :=
  match m with
  | .dest => b.digit d
  | .src => b.digit s

/-- R125: CopyMantissa. While the source cursor is in the mantissa and the stop mask is not 9, copy one digit and move
both cursors down. -/
def copyMantissa (m : MaskCursor) (a b : Reg) : (s d : Nat) → Reg → Reg
  | 0, _, c => c
  | s + 1, d, c =>
    if 3 ≤ s + 1 ∧ maskDigit m b (s + 1) d ≠ 9 then
      copyMantissa m a b s (d - 1) (c.setDigit d (a.digit (s + 1)))
    else c

/-- R128: b0, the borrow out of the ones digit. -/
def borrowOnes (m0 : Digit) : Nat := if m0 ≠ 0 then 1 else 0

/-- R128: C[0] of a negative exponent. -/
def negOnes (m0 : Digit) : Digit := BitVec.ofNat 4 ((10 - m0.toNat) % 10)

/-- R128: C[1] of a negative exponent; the tens digit takes the borrow. -/
def negTens (m1 m0 : Digit) : Digit := BitVec.ofNat 4 ((10 - m1.toNat - borrowOnes m0) % 10)

/-- R128: b1, the borrow out of the tens digit. -/
def borrowTens (m1 m0 : Digit) : Nat := if m1.toNat + borrowOnes m0 ≠ 0 then 1 else 0

/-- R128, R129: C[2] of a negative exponent, under NEG_EXP_SIGN. -/
def negSign (e : NegExpSign) (m1 m0 : Digit) : Digit :=
  match e with
  | .borrowOut => BitVec.ofNat 4 ((10 - borrowTens m1 m0) % 10)
  | .tensZero => if negTens m1 m0 = 0 then 0 else 9

/-- R127 to R129: the exponent field of C: copied if A[2] = 0, else the ten's complement of A[1..0]. -/
def writeExponent (e : NegExpSign) (a c : Reg) : Reg :=
  if a.digit 2 = 0 then
    ((c.setDigit 2 (a.digit 2)).setDigit 1 (a.digit 1)).setDigit 0 (a.digit 0)
  else
    ((c.setDigit 2 (negSign e (a.digit 1) (a.digit 0))).setDigit 1 (negTens (a.digit 1) (a.digit 0))).setDigit 0
      (negOnes (a.digit 0))

/-- R120, R121: canonicalize(A, B). -/
def canonicalize (p : Config) (a b : Reg) : Reg :=
  writeExponent p.negExpSign a (copyMantissa p.maskCursor a b (skipLeadingZeros a 12) 12 (initC a))

/-- R121, R130: CANON's steps from CheckDigits to RF[2] <- C, which DISPLAY performs too (R158). -/
def canonSteps (s : State) (k : State → Result) : Result :=
  checkDigits s fun s => k (s.setReg .x (canonicalize s.config (s.reg .a) (s.reg .b)))

/-- R121: CANON. -/
def execCanon (s : State) : Result := unlessFaulted s fun s => canonSteps s respondOk

end Sys2Proof.Machine
end

