-- ==== Sys2Proof/Machine/Display.lean ====
section
/-! DEFINITION. The seven-segment decoder, MASKS and DISPLAY (42_display_decoder.md). -/

namespace Sys2Proof.Machine

/-- R151: Seg(k) for the digit k shown at a position. A cell that holds no digit has no entry: a free value (assumption 6). -/
def segDigit (t : SegTable) (x : Reg) (dp p : Nat) (k : Digit) : Mask :=
  if h : k.toNat < 10 then t.digit[k.toNat] else Config.nonDigitMask x dp p

/-- R154: a sign position shows Minus when the sign digit is not 0, else Blank. -/
def segSign (t : SegTable) (k : Digit) : Mask := if k ≠ 0 then t.minus else t.blank

/-- R154: mask[p] of Decode(X, dp). -/
def positionMask (t : SegTable) (x : Reg) (dp p : Nat) : Mask :=
  if p = 0 then segSign t (x.digit 13)
  else if p ≤ 10 then
    if p = dp then segDigit t x dp p (x.digit (13 - p)) ||| t.point else segDigit t x dp p (x.digit (13 - p))
  else if p = 11 then segSign t (x.digit 2)
  else if p = 12 then segDigit t x dp p (x.digit 1)
  else if p = 13 then segDigit t x dp p (x.digit 0)
  else t.blank

/-- R153, R154: Decode(X, dp), 15 masks. -/
def decodeDisplay (t : SegTable) (x : Reg) (dp : Nat) : Vector Mask 15 :=
  Vector.ofFn fun p : Fin 15 => positionMask t x dp p

/-- R156, R158: the check of dp, before anything else is done (R207). -/
def withLegalDp (dp : Nat) (s : State) (k : State → Result) : Result :=
  if dpLegal dp then k s else raise .illegal s

/-- `respond(OK, masks = Decode(RF[2], dp))`. -/
def respondDisplay (dp : Nat) (s : State) : Result := respondMasks (decodeDisplay s.config.seg (s.reg .x) dp) s

/-- R156: MASKS dp. -/
def execMasks (dp : Nat) (s : State) : Result := unlessFaulted s fun s => withLegalDp dp s (respondDisplay dp)

/-- R158: DISPLAY dp. CANON and then MASKS as one step (R54). -/
def execDisplay (dp : Nat) (s : State) : Result :=
  unlessFaulted s fun s => withLegalDp dp s fun s => canonSteps s (respondDisplay dp)

end Sys2Proof.Machine
end

