-- ==== Sys2Proof/Machine/RegisterAccess.lean ====
section
/-! DEFINITION. GET and SET (43_processor_state.md). -/

namespace Sys2Proof.Machine

/-- R170: GET r. The identifier check is the decoder's (R63). -/
def execGet (r : RegId) (s : State) : Result := unlessFaulted s fun s => respondRdata (s.reg r).pack s

/-- R172: SET r, v. A value with a nibble above 9 is ILLEGAL and not written. -/
def execSet (r : RegId) (wdata : PackedWord) (s : State) : Result :=
  unlessFaulted s fun s =>
    if (Reg.unpack wdata).IsDecimal then respondOk (s.setReg r (Reg.unpack wdata)) else raise .illegal s

end Sys2Proof.Machine
end

