-- ==== Sys2Proof/Machine/StringCodec.lean ====
section
/-! DEFINITION. GETS and SETS (40_register_codec.md). -/

namespace Sys2Proof.Machine

/-- R107: GETS r. -/
def execGets (r : RegId) (s : State) : Result := unlessFaulted s fun s => respondSout (format (s.reg r)) s

/-- R105: SETS r, s. A string that is not 14 ASCII digits is FORMAT_ERROR and nothing is written. -/
def execSets (r : RegId) (sdata : List Byte) (s : State) : Result :=
  unlessFaulted s fun s =>
    match parse sdata with
    | some v => respondOk (s.setReg r v)
    | none => raise .formatError s

end Sys2Proof.Machine
end

