-- ==== Sys2Proof/Machine/Dispatch.lean ====
section
/-! DEFINITION. exec: one arm per command. -/

namespace Sys2Proof.Machine

def exec (i : Instr) (s : State) : Host.Outcome State Fault Refusal :=
  match i with
  | .get r => Sys2Proof.Machine.execGet r s
  | .set r wdata => Sys2Proof.Machine.execSet r wdata s
  | .gets r => Sys2Proof.Machine.execGets r s
  | .sets r sdata => Sys2Proof.Machine.execSets r sdata s
  | .canon => Sys2Proof.Machine.execCanon s
  | .masks dp => Sys2Proof.Machine.execMasks dp s
  | .display dp => Sys2Proof.Machine.execDisplay dp s

end Sys2Proof.Machine
end

