-- ==== Sys2Proof/Machine/Fetch.lean ====
section
/-! DEFINITION. Taking the host's next input, and placing a command where the next step takes it. -/

namespace Sys2Proof.Machine

/-- R51, R250: the host's first input, and the state in which it is taken: it stands there no more (R55). -/
def nextInput (s : State) : Option (HostInput × State) :=
  match s.inputs with
  | [] => none
  | i :: rest => some (i, { s with inputs := rest })

/-- The state in which a command is what the host presents next; everything else it was to do comes after. -/
def State.present (s : State) (c : Command) : State := { s with inputs := .command c :: s.inputs }

/-- The command of an opcode-table word: its low 8 bits (R61), the data ports zero (assumption 14). -/
def tableCommand (nbits w : Nat) : Command := Command.ofWord (BitVec.ofNat 8 (w % 2 ^ nbits))

end Sys2Proof.Machine
end

