-- ==== Sys2Proof/Machine/Step.lean ====
section
/-! DEFINITION. One step of the machine: it takes the host's next input and serves it whole (R6, R48). -/

namespace Sys2Proof.Machine

/-- R6, R240, R250: one step. A command word with no instruction is illegal (R67). -/
def step (s : State) : Host.Outcome State Fault Refusal :=
  match nextInput s with
  | none => idle s
  | some (.resetSignal, s') => takeReset s'
  | some (.command c, s') =>
    match decode c with
    | .ok i => exec i s'
    | .error e => execIllegal e s'

/-- The state in which the host presents the command of an opcode-table word next (assumption 14). -/
def State.withFetchWord (s : State) (nbits w : Nat) : State := s.present (tableCommand nbits w)

end Sys2Proof.Machine
end

