-- ==== Sys2Proof/Safety.lean ====
section
/-! DEFINITION. The terms claims are made in: what a command leaves unchanged, what an answer without data is, which
commands are illegal, and the invariant of a safe run. -/

namespace Sys2Proof.Machine

/-- The frame of a command: nothing changes but the registers listed and the response on the output ports. -/
def Changes (written : List RegId) (s t : State) : Prop :=
  (∀ r, r ∉ written → t.reg r = s.reg r) ∧ t.fault = s.fault ∧ t.config = s.config ∧ t.inputs = s.inputs

/-- R60, R201: every result port carries zeros. -/
def Response.NoData (p : Response) : Prop :=
  p.rdata = 0 ∧ p.sout = Vector.replicate 14 0 ∧ p.masks = Vector.replicate 15 0

/-- The output ports of a state carry a status and no data. -/
def Answers (t : State) (e : Status) : Prop := ∃ p, t.response = some p ∧ p.status = e ∧ p.NoData

/-- R9: digit i of a packed word, `v[4i+3:4i]`. -/
abbrev nibble (w : PackedWord) (i : Nat) : Digit := w.extractLsb' (4 * i) 4

/-- R67, the bullets about the command word, over its two fields. -/
abbrev IllegalFields (op arg : Nat) : Prop :=
  op = 0 ∨ 8 ≤ op ∨ (1 ≤ op ∧ op ≤ 4 ∧ 7 ≤ arg) ∨ (op = 5 ∧ arg ≠ 0) ∨ ((op = 6 ∨ op = 7) ∧ (arg = 0 ∨ 11 ≤ arg))

/-- R67: an illegal command word, read as the unsigned number 16 * op + arg (R61). -/
abbrev IllegalWord (cmd : BitVec 8) : Prop := IllegalFields (cmd.toNat / 16) (cmd.toNat % 16)

/-- R67, the last bullet: op = 0x2 with any wdata nibble above 9. -/
abbrev IllegalData (c : Command) : Prop := c.cmd.toNat / 16 = 2 ∧ ∃ i < 14, 9 < (nibble c.wdata i).toNat

/-- R67, R204: presented to a block that is not faulted, the command answers ILLEGAL and changes no state. -/
def AnswersIllegal (c : Command) : Prop :=
  ∀ (s : State) (rest : List HostInput), s.inputs = .command c :: rest → s.fault = false →
    ∃ t, step s = .next t ∧ Answers t .illegal ∧ Changes [] { s with inputs := rest } t

/-- R101: a byte string that Parse accepts. -/
abbrev DecimalString (str : List Byte) : Prop := str.length = 14 ∧ ∀ k < 14, asciiDigit (str.getD k 0)

/-- m = 10 * A[1] + A[0], the exponent number the canonicalizer reads (R128). -/
def State.m (s : State) : Nat := 10 * ((s.reg .a).digit 1).toNat + ((s.reg .a).digit 0).toNat

/-- The data a response of a sound block carries: decimal digits on rdata (R170), ASCII digits or zeros on sout (R107),
and no report of a fault (R28). -/
structure Response.Sound (p : Response) : Prop where
  status : p.status ≠ .invariantViolation ∧ p.status ≠ .faulted
  rdata  : ∀ i < 14, (nibble p.rdata i).toNat ≤ 9
  sout   : p.sout = Vector.replicate 14 0 ∨ ∀ k : Fin 14, asciiDigit p.sout[k]

/-- The invariant of the machine: every digit of every register is 0 to 9 (R25), STAT.FAULT is clear (R28), the segment
table is a legal one (R151), the host presents only what the ports can carry (R60), and the response is sound. -/
structure State.Inv (s : State) : Prop where
  digits      : ∀ r, (s.reg r).IsDecimal
  noFault     : s.fault = false
  seg         : s.config.seg.WellFormed
  presentable : ∀ c, HostInput.command c ∈ s.inputs → c.WellFormed
  response    : ∀ p, s.response = some p → p.Sound

end Sys2Proof.Machine
end

