-- ==== Sys2Proof/Certificates/Slice0/Obligations.lean ====
section
/-! DEFINITION. The statements for the provers. Each docstring names the rule it formalises. `Changes [r] s t` is the
frame: nothing differs between s and t but register r and the response. -/

open Sys2Proof Sys2Proof.Machine

/-! Encoding (30_encoding.md) -/

/-- R61, R62, R63, R64: one word of every command, written out from the opcode map. -/
def Obligations.SampleWordsDecode : Prop :=
  decode { cmd := 0b00010000, wdata := 0, sdata := [] } = .ok (.get .a) ∧
  decode { cmd := 0b00100001, wdata := 0x02999999999000, sdata := [] } = .ok (.set .b 0x02999999999000) ∧
  decode { cmd := 0b00110110, wdata := 0, sdata := [] } = .ok (.gets .s) ∧
  decode { cmd := 0b01000011, wdata := 0, sdata := [0x30] } = .ok (.sets .y [0x30]) ∧
  decode { cmd := 0b01010000, wdata := 0, sdata := [] } = .ok .canon ∧
  decode { cmd := 0b01101010, wdata := 0, sdata := [] } = .ok (.masks 10) ∧
  decode { cmd := 0b01110001, wdata := 0, sdata := [] } = .ok (.display 1)

/-- The encoder writes every well-formed instruction, with every operand, as ports the host can present and the decoder
reads back (R61 to R65, R69). -/
def Obligations.DecodeInvertsEncode : Prop :=
  ∀ i : Instr, i.WellFormed = true → (encode i).WellFormed ∧ decode (encode i) = .ok i

/-- No two command words mean the same: what the decoder reads, the encoder writes as the same word, with the same data
on the port the command uses; and what it reads from presentable ports is well-formed (R61 to R66). -/
def Obligations.EncodeInvertsDecode : Prop :=
  ∀ (c : Command) (i : Instr), decode c = .ok i →
    (encode i).cmd = c.cmd ∧
    (c.cmd.toNat / 16 = 2 → (encode i).wdata = c.wdata) ∧
    (c.cmd.toNat / 16 = 4 → (encode i).sdata = c.sdata) ∧
    (c.WellFormed → i.WellFormed = true)

/-- R68: of the 256 command words 49 are legal, 28 of them GET, SET, GETS and SETS, one CANON, 20 MASKS and DISPLAY. -/
def Obligations.FortyNineLegalWords : Prop :=
  let legal (lo hi : Nat) := ((List.range 256).filter fun w =>
    lo ≤ w / 16 ∧ w / 16 ≤ hi ∧ (decode (Command.ofWord (BitVec.ofNat 8 w))).toOption.isSome).length
  legal 0 15 = 49 ∧ legal 1 4 = 28 ∧ legal 1 1 = 7 ∧ legal 2 2 = 7 ∧ legal 3 3 = 7 ∧ legal 4 4 = 7 ∧ legal 5 5 = 1 ∧
    legal 6 7 = 20 ∧ legal 6 6 = 10 ∧ legal 7 7 = 10

/-- R67: every command word of the rule's list, and SET with a nibble above 9, answers ILLEGAL and changes no state; every
other command word is a command of the table, so none is a hint or custom. -/
def Obligations.IllegalCommandsAnswerIllegal : Prop :=
  (∀ c : Command, IllegalWord c.cmd ∨ IllegalData c → AnswersIllegal c) ∧
  ∀ c : Command, ¬ IllegalWord c.cmd → ∃ i, decode c = .ok i ∧ i.opcode.toNat = c.cmd.toNat / 16

/-- R66: the ports a command uses are fixed by its opcode. An input port the opcode does not use is ignored; a result port
it does not use carries zeros, and so does every result port when the status is not OK (R60, R201). -/
def Obligations.PortsAreFixedByOpcode : Prop :=
  (∀ (s : State) (c c' : Command) (rest : List HostInput), c.cmd = c'.cmd →
    (c.cmd.toNat / 16 = 2 → c.wdata = c'.wdata) → (c.cmd.toNat / 16 = 4 → c.sdata = c'.sdata) →
    step { s with inputs := .command c :: rest } = step { s with inputs := .command c' :: rest }) ∧
  ∀ (s : State) (c : Command) (rest : List HostInput), s.inputs = .command c :: rest →
    ∃ t p, step s = .next t ∧ t.response = some p ∧
      (¬ (p.status = .ok ∧ c.cmd.toNat / 16 = 1) → p.rdata = 0) ∧
      (¬ (p.status = .ok ∧ c.cmd.toNat / 16 = 3) → p.sout = Vector.replicate 14 0) ∧
      (¬ (p.status = .ok ∧ (c.cmd.toNat / 16 = 6 ∨ c.cmd.toNat / 16 = 7)) → p.masks = Vector.replicate 15 0)

/-! The step (00_scope.md R6, 20_memory.md, 70_reset_and_hazards.md) -/

/-- R6, R51: when the host presents a legal command, the step is exec of that command, the command taken. -/
def Obligations.StepRunsDecodedCommand : Prop :=
  ∀ (s : State) (c : Command) (rest : List HostInput) (i : Instr),
    s.inputs = .command c :: rest → decode c = .ok i → step s = exec i { s with inputs := rest }

/-- The model's choice (assumption 5): with nothing presented the block does nothing. -/
def Obligations.StepWithoutInputIdles : Prop := ∀ s : State, s.inputs = [] → step s = .next s

/-- R51, R256: every step and every command completes, and keeps the parameters (R30). A step takes exactly the first of
the host's inputs, if there is one; with none it is the model's idle step (assumption 5, the model's choice). -/
def Obligations.EveryStepCompletes : Prop :=
  (∀ s : State, ∃ t, step s = .next t ∧ t.inputs = s.inputs.tail ∧ t.config = s.config) ∧
  ∀ (i : Instr) (s : State), ∃ t, exec i s = .next t ∧ t.inputs = s.inputs ∧ t.config = s.config

/-- R50: the only register a command writes is the one it names, if it is SET or SETS, or X, if it is CANON or DISPLAY. -/
def Obligations.CommandsWriteOnlyTheirRegister : Prop :=
  ∀ (s : State) (c : Command) (rest : List HostInput) (t : State), s.inputs = .command c :: rest → step s = .next t →
    ∀ r, t.reg r ≠ s.reg r →
      ((c.cmd.toNat / 16 = 2 ∨ c.cmd.toNat / 16 = 4) ∧ c.cmd.toNat % 16 = r.code.toNat) ∨
      ((c.cmd.toNat / 16 = 5 ∨ c.cmd.toNat / 16 = 7) ∧ r = .x)

/-! Errors and the fault flag (60_exceptions.md) -/

/-- R205: while STAT.FAULT is set every command, legal or not, answers FAULTED and changes nothing; only the reset signal
clears the flag. -/
def Obligations.FaultedAnswersEveryCommand : Prop :=
  (∀ (s : State) (c : Command) (rest : List HostInput), s.fault = true → s.inputs = .command c :: rest →
    ∃ t, step s = .next t ∧ Answers t .faulted ∧ Changes [] { s with inputs := rest } t) ∧
  ∀ s t : State, s.fault = true → step s = .next t → (t.fault = false ↔ ∃ rest, s.inputs = .resetSignal :: rest)

/-- R207: the status of a command is the first that applies in the rule's order; and an ILLEGAL command does not touch
STAT.FAULT, whatever A holds. -/
def Obligations.StatusPriority : Prop :=
  ∀ (s : State) (c : Command) (rest : List HostInput), s.inputs = .command c :: rest →
    ∃ t p, step s = .next t ∧ t.response = some p ∧
      (s.fault = true → p.status = .faulted) ∧
      (s.fault = false → IllegalWord c.cmd → p.status = .illegal) ∧
      (s.fault = false → ¬ IllegalWord c.cmd → IllegalData c → p.status = .illegal) ∧
      (s.fault = false → ¬ IllegalWord c.cmd → ¬ IllegalData c →
        (c.cmd.toNat / 16 = 4 → ¬ DecimalString c.sdata → p.status = .formatError) ∧
        (c.cmd.toNat / 16 = 5 ∨ c.cmd.toNat / 16 = 7 → ¬ s.InputDigitsOk → p.status = .invariantViolation) ∧
        ((c.cmd.toNat / 16 = 4 → DecimalString c.sdata) →
          (c.cmd.toNat / 16 = 5 ∨ c.cmd.toNat / 16 = 7 → s.InputDigitsOk) → p.status = .ok)) ∧
      (p.status = .illegal → t.fault = s.fault)

/-- R200: the code of each status; the codes 5 to 7 are never produced. -/
def Obligations.StatusCodes : Prop :=
  Status.ok.code = 0 ∧ Status.formatError.code = 1 ∧ Status.invariantViolation.code = 2 ∧ Status.illegal.code = 3 ∧
  Status.faulted.code = 4 ∧
  ∀ (s : State) (c : Command) (rest : List HostInput), s.inputs = .command c :: rest →
    ∃ t p, step s = .next t ∧ t.response = some p ∧ p.status.code.toNat < 5

/-- R206: a command that ends in an error writes no register, the only state an error writes is STAT.FAULT, and that only
by INVARIANT_VIOLATION (R203); no status depends on what an earlier command answered. -/
def Obligations.ErrorsArePrecise : Prop :=
  ∀ (s : State) (c : Command) (rest : List HostInput), s.inputs = .command c :: rest →
    (∀ t p, step s = .next t → t.response = some p → p.status ≠ .ok →
      (∀ r, t.reg r = s.reg r) ∧ t.config = s.config ∧ t.inputs = rest ∧
      (p.status ≠ .invariantViolation → t.fault = s.fault)) ∧
    ∀ earlier, step { s with response := earlier } = step s

/-- R122: CANON checks all 28 digits of A and B first; any above 9 sets STAT.FAULT, leaves every register unchanged and
answers INVARIANT_VIOLATION; when every digit is 0 to 9, as R25 says it is, the check does not fire. -/
def Obligations.CanonInvariantViolation : Prop :=
  ∀ s : State, s.fault = false →
    ((∃ i < 14, 9 < ((s.reg .a).digit i).toNat ∨ 9 < ((s.reg .b).digit i).toNat) →
      ∃ t, exec .canon s = .next t ∧ Answers t .invariantViolation ∧ t.fault = true ∧ (∀ r, t.reg r = s.reg r) ∧
        t.config = s.config ∧ t.inputs = s.inputs) ∧
    ((∀ r, (s.reg r).IsDecimal) → ∃ t, exec .canon s = .next t ∧ Answers t .ok ∧ t.fault = false)

/-- R203 for DISPLAY: with a legal dp and a digit above 9 in A or B it answers INVARIANT_VIOLATION, returns no masks, sets
STAT.FAULT and changes no register; and every command after it, until reset, answers FAULTED. -/
def Obligations.DisplayInvariantViolation : Prop :=
  ∀ (s : State) (dp : Nat), s.fault = false → 1 ≤ dp → dp ≤ 10 →
    (∃ i < 14, 9 < ((s.reg .a).digit i).toNat ∨ 9 < ((s.reg .b).digit i).toNat) →
    ∃ t, exec (.display dp) s = .next t ∧ Answers t .invariantViolation ∧ t.fault = true ∧
      (∀ r, t.reg r = s.reg r) ∧ t.config = s.config ∧ t.inputs = s.inputs ∧
      ∀ i, ∃ u, exec i t = .next u ∧ Answers u .faulted ∧ u.fault = true

/-- R28: a step sets STAT.FAULT only by an invariant violation in CANON, or in the CANON that DISPLAY performs (R158), and
clears it only by reset. -/
def Obligations.FaultFlagLife : Prop :=
  ∀ s t : State, step s = .next t →
    (s.fault = false → t.fault = true → ∃ c rest p, s.inputs = .command c :: rest ∧ t.response = some p ∧
      p.status = .invariantViolation ∧ (decode c = .ok .canon ∨ ∃ dp, decode c = .ok (.display dp))) ∧
    (s.fault = true → t.fault = false → ∃ rest, s.inputs = .resetSignal :: rest)

/-! Reset (10_state.md, 70_reset_and_hazards.md) -/

/-- R32 to R35: what reset leaves. R33 and R34 give B[13..2], X, Y, Z, T and S as the spec's own decision (assumption
3). -/
def Obligations.ResetRegisterValues : Prop :=
  (∀ r, r ≠ .b → ∀ i < 14, (State.reset.reg r).digit i = 0) ∧
  (State.reset.reg .b).digit 0 = 9 ∧ (State.reset.reg .b).digit 1 = 9 ∧
  (∀ i < 14, 2 ≤ i → (State.reset.reg .b).digit i = 0) ∧
  State.reset.fault = false

/-- R240: the reset signal, in any state, sets every register and STAT.FAULT to the reset value in one step; the segment
table and the host's further inputs are as before. -/
def Obligations.ResetSignalRestoresBlock : Prop :=
  ∀ (s : State) (rest : List HostInput), s.inputs = .resetSignal :: rest →
    ∃ t, step s = .next t ∧ (∀ r, t.reg r = State.reset.reg r) ∧ t.fault = false ∧ t.config = s.config ∧ t.inputs = rest

/-- R243: CANON straight after reset writes X all zeros, whatever the parameters. -/
def Obligations.CanonAfterResetIsZero : Prop :=
  ∀ cfg : Config, ∃ t, exec .canon { State.reset with config := cfg } = .next t ∧ Answers t .ok ∧
    ∀ i < 14, (t.reg .x).digit i = 0

/-! GET and SET (43_processor_state.md) -/

/-- R170: GET r returns the register's digits, digit i on rdata[4i+3:4i], and changes nothing. -/
def Obligations.GetReturnsPackedRegister : Prop :=
  (∀ (s : State) (r : RegId), s.fault = false → ∃ t p, exec (.get r) s = .next t ∧ t.response = some p ∧
    p.status = .ok ∧ (∀ i < 14, nibble p.rdata i = (s.reg r).digit i) ∧
    p.sout = Vector.replicate 14 0 ∧ p.masks = Vector.replicate 15 0 ∧ Changes [] s t) ∧
  (∀ (s : State) (r : RegId), s.fault = true → ∃ t, exec (.get r) s = .next t ∧ Answers t .faulted ∧ Changes [] s t) ∧
  (∀ (c : Command) (r : RegId), c.cmd.toNat = 16 * 1 + r.code.toNat → decode c = .ok (.get r)) ∧
  (∀ c : Command, c.cmd.toNat / 16 = 1 → 7 ≤ c.cmd.toNat % 16 → AnswersIllegal c) ∧
  (∀ (r : RegId), ∃ t p, exec (.get r) State.reset = .next t ∧ t.response = some p ∧
    p.rdata = if r = .b then 0x00000000000099 else 0x00000000000000)

/-- R172: SET r, v writes all 14 digits of v into r and nothing else, unless a nibble is above 9: then it answers ILLEGAL
and writes nothing. -/
def Obligations.SetWritesOrRefuses : Prop :=
  (∀ (s : State) (r : RegId) (w : PackedWord), s.fault = false → (∀ i < 14, (nibble w i).toNat ≤ 9) →
    ∃ t, exec (.set r w) s = .next t ∧ Answers t .ok ∧ (∀ i < 14, (t.reg r).digit i = nibble w i) ∧ Changes [r] s t) ∧
  (∀ (s : State) (r : RegId) (w : PackedWord), s.fault = false → (∃ i < 14, 9 < (nibble w i).toNat) →
    ∃ t, exec (.set r w) s = .next t ∧ Answers t .illegal ∧ Changes [] s t) ∧
  (∀ (s : State) (r : RegId) (w : PackedWord), s.fault = true →
    ∃ t, exec (.set r w) s = .next t ∧ Answers t .faulted ∧ Changes [] s t) ∧
  (∀ (c : Command) (r : RegId), c.cmd.toNat = 16 * 2 + r.code.toNat → decode c = .ok (.set r c.wdata)) ∧
  (∀ c : Command, c.cmd.toNat / 16 = 2 → 7 ≤ c.cmd.toNat % 16 → AnswersIllegal c)

/-- R56, R27: a read returns what the last write to that register stored; a write to another register leaves it. -/
def Obligations.GetReadsLastSet : Prop :=
  ∀ (s : State) (r q : RegId) (w : PackedWord), s.fault = false → (∀ i < 14, (nibble w i).toNat ≤ 9) →
    ∃ t u v p p', exec (.set r w) s = .next t ∧ exec (.get q) t = .next u ∧ exec (.get q) s = .next v ∧
      u.response = some p ∧ v.response = some p' ∧ p.status = .ok ∧
      p.rdata = if q = r then w else p'.rdata

/-! GETS and SETS (40_register_codec.md) -/

/-- R105: SETS r, s writes the digits of a string of 14 ASCII digits, the mantissa sign first, and nothing else; any other
string answers FORMAT_ERROR and writes nothing. -/
def Obligations.SetsParsesOrRejects : Prop :=
  (∀ (s : State) (r : RegId) (str : List Byte), s.fault = false → DecimalString str →
    ∃ t, exec (.sets r str) s = .next t ∧ Answers t .ok ∧
      (∀ k < 14, ((t.reg r).digit (13 - k)).toNat = (str.getD k 0).toNat - 0x30) ∧ Changes [r] s t) ∧
  (∀ (s : State) (r : RegId) (str : List Byte), s.fault = false → ¬ DecimalString str →
    ∃ t, exec (.sets r str) s = .next t ∧ Answers t .formatError ∧ Changes [] s t) ∧
  (∀ (s : State) (r : RegId) (str : List Byte), s.fault = true →
    ∃ t, exec (.sets r str) s = .next t ∧ Answers t .faulted ∧ Changes [] s t) ∧
  (∀ (c : Command) (r : RegId), c.cmd.toNat = 16 * 4 + r.code.toNat → decode c = .ok (.sets r c.sdata)) ∧
  (∀ c : Command, c.cmd.toNat / 16 = 4 → 7 ≤ c.cmd.toNat % 16 → AnswersIllegal c)

/-- R107: GETS r returns the decimal string of r and changes nothing. Each byte is stated for a digit 0 to 9, which R25
says every digit is. -/
def Obligations.GetsFormatsRegister : Prop :=
  (∀ (s : State) (r : RegId), s.fault = false → ∃ t p, exec (.gets r) s = .next t ∧ t.response = some p ∧
    p.status = .ok ∧
    (∀ k : Fin 14, ((s.reg r).digit (13 - k)).toNat ≤ 9 → p.sout[k].toNat = 0x30 + ((s.reg r).digit (13 - k)).toNat) ∧
    p.rdata = 0 ∧ p.masks = Vector.replicate 15 0 ∧ Changes [] s t) ∧
  (∀ (s : State) (r : RegId), s.fault = true → ∃ t, exec (.gets r) s = .next t ∧ Answers t .faulted ∧ Changes [] s t) ∧
  (∀ (c : Command) (r : RegId), c.cmd.toNat = 16 * 3 + r.code.toNat → decode c = .ok (.gets r)) ∧
  (∀ c : Command, c.cmd.toNat / 16 = 3 → 7 ≤ c.cmd.toNat % 16 → AnswersIllegal c) ∧
  (∀ r : RegId, ∃ t p, exec (.gets r) State.reset = .next t ∧ t.response = some p ∧
    ∀ k : Fin 14, p.sout[k] = if r = .b ∧ 12 ≤ k.val then 0x39 else 0x30)

/-- R103: Parse and Format invert each other, and Parse accepts exactly the strings of 14 ASCII digits. -/
def Obligations.ParseAndFormatInvert : Prop :=
  (∀ r : Reg, r.IsDecimal → parse (format r).toList = some r) ∧
  (∀ (str : List Byte) (r : Reg), parse str = some r → r.IsDecimal ∧ (format r).toList = str) ∧
  ∀ str : List Byte, (parse str).isSome = true ↔ DecimalString str

/-- V5 of 95_test_vectors.md, R103, R105, R107: GETS of the register that a SETS wrote returns the string it wrote. -/
def Obligations.GetsReturnsTheStringSet : Prop :=
  ∀ (s : State) (r : RegId) (str : List Byte), s.fault = false → DecimalString str →
    ∃ t u p, exec (.sets r str) s = .next t ∧ exec (.gets r) t = .next u ∧ u.response = some p ∧ p.status = .ok ∧
      p.sout.toList = str

/-- R171: GET and GETS of the same register return the same digits. -/
def Obligations.GetAndGetsAgree : Prop :=
  ∀ (s : State) (r : RegId), s.fault = false → (s.reg r).IsDecimal →
    ∃ t u p q, exec (.get r) s = .next t ∧ exec (.gets r) s = .next u ∧ t.response = some p ∧ u.response = some q ∧
      ∀ k : Fin 14, q.sout[k].toNat = 0x30 + (nibble p.rdata (13 - k)).toNat

/-- R173: SETS of a string and SET of the word with the same digits have the same effect, in every state. -/
def Obligations.SetAndSetsAgree : Prop :=
  ∀ (s : State) (r : RegId) (str : List Byte) (w : PackedWord), DecimalString str →
    (∀ k < 14, (nibble w (13 - k)).toNat = (str.getD k 0).toNat - 0x30) → exec (.sets r str) s = exec (.set r w) s

/-- R49: GET, GETS and MASKS change no state, and repeated they answer the same; CANON repeated writes the same X. -/
def Obligations.ReadsHaveNoSideEffect : Prop :=
  (∀ (s : State) (i : Instr), (∃ r, i = .get r) ∨ (∃ r, i = .gets r) ∨ (∃ dp, i = .masks dp) →
    ∃ t, exec i s = .next t ∧ Changes [] s t ∧ exec i t = .next t) ∧
  ∀ s t : State, exec .canon s = .next t → ∃ u, exec .canon t = .next u ∧ u.rf = t.rf

/-! CANON (41_canonicalizer.md) -/

/-- R121, R130: CANON, command word 0x50 only, on digits 0 to 9 completes, replaces X by canonicalize(A, B) and writes
nothing else, and returns no data. What canonicalize computes, the statements below say digit by digit. -/
def Obligations.CanonWritesOnlyX : Prop :=
  (∀ s : State, s.fault = false → s.InputDigitsOk →
    ∃ t, exec .canon s = .next t ∧ Answers t .ok ∧ t.reg .x = canonicalize s.config (s.reg .a) (s.reg .b) ∧
      Changes [.x] s t) ∧
  (∀ s : State, s.fault = true → ∃ t, exec .canon s = .next t ∧ Answers t .faulted ∧ Changes [] s t) ∧
  (∀ c : Command, c.cmd = 0x50 → decode c = .ok .canon) ∧
  (∀ c : Command, c.cmd.toNat / 16 = 5 → c.cmd.toNat % 16 ≠ 0 → AnswersIllegal c)

/-- R123: the mantissa sign of X is 0 if that of A is 0, and 9 otherwise; and C starts with every digit 0, so that a stop
mark at every mantissa position leaves X[12..3] all 0. -/
def Obligations.CanonMantissaSign : Prop :=
  ∀ s : State, s.fault = false → s.InputDigitsOk →
    ∃ t, exec .canon s = .next t ∧ ((t.reg .x).digit 13 = if (s.reg .a).digit 13 = 0 then 0 else 9) ∧
      ((∀ j, 3 ≤ j → j ≤ 12 → (s.reg .b).digit j = 9) → ∀ j, 3 ≤ j → j ≤ 12 → (t.reg .x).digit j = 0)

/-- R124, R125, R126: with s0 the index of A's first nonzero mantissa digit (3 if A[12..4] are all 0), X[12..3] is A's
digits from s0 down, as many as come before the first stop mark 9, then zeros; both readings of B_MASK_CURSOR. -/
def Obligations.CanonMantissaCopy : Prop :=
  ∀ s : State, s.fault = false → s.InputDigitsOk → ∃ t s0 n, exec .canon s = .next t ∧
    3 ≤ s0 ∧ s0 ≤ 12 ∧ (∀ j, s0 < j → j ≤ 12 → (s.reg .a).digit j = 0) ∧ ((s.reg .a).digit s0 ≠ 0 ∨ s0 = 3) ∧
    n ≤ s0 - 2 ∧
    (let mark (j : Nat) := (s.reg .b).digit (match s.config.maskCursor with | .dest => 12 - j | .src => s0 - j)
     (∀ j < n, mark j ≠ 9) ∧ (n = s0 - 2 ∨ mark n = 9)) ∧
    (∀ j < n, (t.reg .x).digit (12 - j) = (s.reg .a).digit (s0 - j)) ∧
    (∀ j < 10, n ≤ j → (t.reg .x).digit (12 - j) = 0)

/-- R127: a positive exponent field is copied verbatim. -/
def Obligations.CanonPositiveExponent : Prop :=
  ∀ s : State, s.fault = false → s.InputDigitsOk → (s.reg .a).digit 2 = 0 →
    ∃ t, exec .canon s = .next t ∧ (t.reg .x).digit 2 = 0 ∧ (t.reg .x).digit 1 = (s.reg .a).digit 1 ∧
      (t.reg .x).digit 0 = (s.reg .a).digit 0

/-- R128: a negative exponent, with NEG_EXP_SIGN = BORROW_OUT: the digit-serial ten's complement with its borrows, and
the three digits of (1000 - m) mod 1000. -/
def Obligations.CanonNegativeExponentBorrowOut : Prop :=
  ∀ s : State, s.fault = false → s.InputDigitsOk → (s.reg .a).digit 2 ≠ 0 → s.config.negExpSign = .borrowOut →
    ∃ t, exec .canon s = .next t ∧
      (let m1 := ((s.reg .a).digit 1).toNat
       let m0 := ((s.reg .a).digit 0).toNat
       let b0 := if m0 ≠ 0 then 1 else 0
       let b1 := if m1 + b0 ≠ 0 then 1 else 0
       ((t.reg .x).digit 0).toNat = (10 - m0) % 10 ∧ ((t.reg .x).digit 1).toNat = (10 - m1 - b0) % 10 ∧
       ((t.reg .x).digit 2).toNat = (10 - b1) % 10) ∧
      100 * ((t.reg .x).digit 2).toNat + 10 * ((t.reg .x).digit 1).toNat + ((t.reg .x).digit 0).toNat =
        (1000 - s.m) % 1000 ∧
      10 * ((t.reg .x).digit 1).toNat + ((t.reg .x).digit 0).toNat = (100 - s.m) % 100

/-- R129: a negative exponent, with NEG_EXP_SIGN = TENS_ZERO: X[1..0] as before, and X[2] is 0 exactly when X[1] is 0; it
differs from the other reading exactly for m = 91 to 99. -/
def Obligations.CanonNegativeExponentTensZero : Prop :=
  ∀ s : State, s.fault = false → s.InputDigitsOk → (s.reg .a).digit 2 ≠ 0 → s.config.negExpSign = .tensZero →
    ∃ t u, exec .canon s = .next t ∧
      exec .canon { s with config := { s.config with negExpSign := .borrowOut } } = .next u ∧
      10 * ((t.reg .x).digit 1).toNat + ((t.reg .x).digit 0).toNat = (100 - s.m) % 100 ∧
      (t.reg .x).digit 1 = (u.reg .x).digit 1 ∧ (t.reg .x).digit 0 = (u.reg .x).digit 0 ∧
      ((t.reg .x).digit 2 = if (t.reg .x).digit 1 = 0 then 0 else 9) ∧
      (t.reg .x ≠ u.reg .x ↔ 91 ≤ s.m)

/-- R131: the range of X after CANON. -/
def Obligations.CanonOutputRange : Prop :=
  ∀ s : State, s.fault = false → s.InputDigitsOk → ∃ t, exec .canon s = .next t ∧
    (t.reg .x).IsDecimal ∧ ((t.reg .x).digit 13 = 0 ∨ (t.reg .x).digit 13 = 9) ∧
    ((t.reg .x).digit 13 = 9 ↔ (s.reg .a).digit 13 ≠ 0) ∧
    ((t.reg .x).digit 2 = 0 ∨ (t.reg .x).digit 2 = 9) ∧ ((s.reg .a).digit 2 = 0 → (t.reg .x).digit 2 = 0) ∧
    (s.config.negExpSign = .borrowOut → ((t.reg .x).digit 2 = 9 ↔ (s.reg .a).digit 2 ≠ 0 ∧ s.m ≠ 0))

/-- R120, R132: X depends on A, on B[12..3] and on the two parameters, and on nothing else of the state. -/
def Obligations.CanonReadsOnlyAAndMantissaOfB : Prop :=
  ∀ s s' : State, s.fault = false → s'.fault = false → s.InputDigitsOk → s'.InputDigitsOk →
    s.reg .a = s'.reg .a → (∀ i, 3 ≤ i → i ≤ 12 → (s.reg .b).digit i = (s'.reg .b).digit i) →
    s.config.maskCursor = s'.config.maskCursor → s.config.negExpSign = s'.config.negExpSign →
    ∃ t t', exec .canon s = .next t ∧ exec .canon s' = .next t' ∧ t.reg .x = t'.reg .x

/-- R254: a value placed in X is lost at the next CANON, which writes what it would have written without it. -/
def Obligations.CanonOverwritesTestValue : Prop :=
  ∀ (s : State) (w : PackedWord), s.fault = false → s.InputDigitsOk → (∀ i < 14, (nibble w i).toNat ≤ 9) →
    ∃ t u v, exec (.set .x w) s = .next t ∧ exec .canon t = .next u ∧ exec .canon s = .next v ∧ u = v

/-! MASKS and DISPLAY (42_display_decoder.md) -/

/-- R154, R156: MASKS dp returns, position by position, the masks of X as it stands, and changes nothing; a dp outside 1
to 10 answers ILLEGAL. A digit position is stated for a digit 0 to 9, which R25 says every digit is. -/
def Obligations.MasksShowX : Prop :=
  (∀ (s : State) (dp : Nat), s.fault = false → 1 ≤ dp → dp ≤ 10 →
    ∃ t p, exec (.masks dp) s = .next t ∧ t.response = some p ∧ p.status = .ok ∧
      (let x := s.reg .x
       let seg := s.config.seg
       p.masks[0] = (if x.digit 13 ≠ 0 then seg.minus else seg.blank) ∧
       (∀ k, 1 ≤ k → k ≤ 10 → (x.digit (13 - k)).toNat ≤ 9 → ∃ d, seg.digit[(x.digit (13 - k)).toNat]? = some d ∧
         p.masks[k]? = some (if k = dp then d ||| seg.point else d)) ∧
       p.masks[11] = (if x.digit 2 ≠ 0 then seg.minus else seg.blank) ∧
       ((x.digit 1).toNat ≤ 9 → seg.digit[(x.digit 1).toNat]? = some p.masks[12]) ∧
       ((x.digit 0).toNat ≤ 9 → seg.digit[(x.digit 0).toNat]? = some p.masks[13]) ∧
       p.masks[14] = seg.blank) ∧
      p.rdata = 0 ∧ p.sout = Vector.replicate 14 0 ∧ Changes [] s t) ∧
  (∀ (s : State) (dp : Nat), s.fault = false → dp < 1 ∨ 10 < dp →
    ∃ t, exec (.masks dp) s = .next t ∧ Answers t .illegal ∧ Changes [] s t) ∧
  (∀ (s : State) (dp : Nat), s.fault = true →
    ∃ t, exec (.masks dp) s = .next t ∧ Answers t .faulted ∧ Changes [] s t) ∧
  (∀ (c : Command) (dp : Nat), 1 ≤ dp → dp ≤ 10 → c.cmd.toNat = 16 * 6 + dp → decode c = .ok (.masks dp)) ∧
  (∀ c : Command, c.cmd.toNat / 16 = 6 → c.cmd.toNat % 16 = 0 ∨ 11 ≤ c.cmd.toNat % 16 → AnswersIllegal c)

/-- R158: DISPLAY dp gives the final state and the masks of CANON followed at once by MASKS dp; an illegal dp answers
ILLEGAL and leaves X unwritten; a digit above 9 in A or B ends it with INVARIANT_VIOLATION. -/
def Obligations.DisplayIsCanonThenMasks : Prop :=
  (∀ (s : State) (dp : Nat), s.fault = false → s.InputDigitsOk → 1 ≤ dp → dp ≤ 10 →
    ∃ t u p, exec .canon s = .next t ∧ exec (.masks dp) t = .next u ∧ exec (.display dp) s = .next u ∧
      u.response = some p ∧ p.status = .ok ∧ Changes [.x] s u ∧ u.reg .x = t.reg .x) ∧
  (∀ (s : State) (dp : Nat), s.fault = false → ¬ s.InputDigitsOk → 1 ≤ dp → dp ≤ 10 →
    ∃ t, exec (.display dp) s = .next t ∧ Answers t .invariantViolation ∧ (∀ r, t.reg r = s.reg r) ∧ t.fault = true) ∧
  (∀ (s : State) (dp : Nat), s.fault = false → dp < 1 ∨ 10 < dp →
    ∃ t, exec (.display dp) s = .next t ∧ Answers t .illegal ∧ Changes [] s t) ∧
  (∀ (s : State) (dp : Nat), s.fault = true →
    ∃ t, exec (.display dp) s = .next t ∧ Answers t .faulted ∧ Changes [] s t) ∧
  (∀ (c : Command) (dp : Nat), 1 ≤ dp → dp ≤ 10 → c.cmd.toNat = 16 * 7 + dp → decode c = .ok (.display dp)) ∧
  (∀ c : Command, c.cmd.toNat / 16 = 7 → c.cmd.toNat % 16 = 0 ∨ 11 ≤ c.cmd.toNat % 16 → AnswersIllegal c)

/-- R159: over every legal segment table, the masks that MASKS and DISPLAY return carry the point at position dp and
nowhere else, a sign position is Minus or Blank, and the last position is Blank. -/
def Obligations.ExactlyOnePoint : Prop :=
  ∀ (s : State) (dp : Nat) (i : Instr), s.fault = false → s.config.seg.WellFormed → (∀ r, (s.reg r).IsDecimal) →
    1 ≤ dp → dp ≤ 10 → i = .masks dp ∨ i = .display dp →
    ∃ t p, exec i s = .next t ∧ t.response = some p ∧ p.status = .ok ∧
      (∀ k : Fin 15, p.masks[k].getLsbD 7 = true ↔ k.val = dp) ∧
      (p.masks[0] = s.config.seg.minus ∨ p.masks[0] = s.config.seg.blank) ∧
      (p.masks[11] = s.config.seg.minus ∨ p.masks[11] = s.config.seg.blank) ∧
      p.masks[14] = s.config.seg.blank

/-- The default segment table, entry by entry, and that it is a legal one (R151). The values are those that R152 takes
from general knowledge (assumption 11). -/
def Obligations.DefaultSegmentTable : Prop :=
  State.reset.config.seg.digit = #v[0x3F, 0x06, 0x5B, 0x4F, 0x66, 0x6D, 0x7D, 0x07, 0x7F, 0x6F] ∧
  State.reset.config.seg.point = 0x80 ∧ State.reset.config.seg.minus = 0x40 ∧ State.reset.config.seg.blank = 0x00 ∧
  State.reset.config.seg.WellFormed

/-- R252: SET or SETS to a register other than X leaves the display stale: MASKS answers as it did before. -/
def Obligations.DisplayStaysStale : Prop :=
  ∀ (s t : State) (i : Instr) (r : RegId) (dp : Nat), r ≠ .x → (∃ w, i = .set r w) ∨ (∃ str, i = .sets r str) →
    exec i s = .next t →
    ∃ u v, exec (.masks dp) s = .next u ∧ exec (.masks dp) t = .next v ∧ v.response = u.response ∧ v.reg .x = s.reg .x

/-! The whole machine -/

/-- R25, R28, R60, R151: every step keeps the invariant, from every state that has it and whatever the host presents; with
nothing presented the step is the model's idle step (assumption 5, the model's choice). -/
def Obligations.StepKeepsInvariant : Prop := ∀ s t : State, s.Inv → step s = .next t → t.Inv

/-- The reset state has the invariant (R25, R32 to R35, R152). -/
def Obligations.ResetHasInvariant : Prop := State.reset.Inv

/-- R25, R28: whatever the host presents after reset, commands legal or not and reset signals, for any parameters with a
legal segment table, and however long the run, every digit is 0 to 9 and STAT.FAULT is clear. A step past the last input
is the model's idle step (assumption 5, the model's choice). -/
def Obligations.NoInputSequenceFaults : Prop :=
  ∀ (cfg : Config) (ins : List HostInput) (n : Nat), cfg.seg.WellFormed →
    (∀ c, HostInput.command c ∈ ins → c.WellFormed) →
    ∃ t : State, Host.Core.run Sys2Proof.core n { State.reset with config := cfg, inputs := ins } = .next t ∧
      (∀ r, (t.reg r).IsDecimal) ∧ t.fault = false ∧ t.inputs = ins.drop n
end

