-- ==== Sys2Proof/Laws/Operands.lean ====
section
/-! SUPPORT. What each operand form does, digit by digit: registers, the packed word, the decimal string. -/

namespace Sys2Proof

/-! Registers -/

theorem Reg.digit_eq_getElem (r : Reg) {i : Nat} (h : i < 14) : r.digit i = r[i] := by
  simp [Reg.digit, h]

/-- Two registers with the same 14 digits are the same. -/
theorem Reg.ext_digit {r q : Reg} (h : ∀ i < 14, r.digit i = q.digit i) : r = q := by
  apply Vector.ext
  intro i hi
  simpa [Reg.digit_eq_getElem, hi] using h i hi

/-- A register built digit by digit. -/
theorem Reg.digit_ofFn (f : Fin 14 → Digit) {i : Nat} (h : i < 14) : Reg.digit (Vector.ofFn f) i = f ⟨i, h⟩ := by
  rw [Reg.digit_eq_getElem _ h, Vector.getElem_ofFn]

@[simp] theorem Reg.digit_zero (i : Nat) : Reg.zero.digit i = 0 := by
  unfold Reg.zero Reg.digit
  by_cases h : i < 14 <;> simp [h]

/-- Writing one digit changes that digit only. -/
theorem Reg.digit_setDigit (r : Reg) (j : Nat) (v : Digit) {i : Nat} (h : i < 14) :
    (r.setDigit j v).digit i = if i = j then v else r.digit i := by
  unfold Reg.setDigit
  rw [Reg.digit_eq_getElem _ h, Reg.digit_eq_getElem _ h, Vector.getElem_setIfInBounds]
  simp [eq_comm]

theorem Reg.isDecimal_zero : Reg.zero.IsDecimal := by simp [Reg.IsDecimal]

/-- Writing a digit 0 to 9 keeps a register decimal. -/
theorem Reg.IsDecimal.setDigit {r : Reg} (h : r.IsDecimal) (j : Nat) {v : Digit} (hv : v.toNat ≤ 9) :
    (r.setDigit j v).IsDecimal := by
  intro i hi
  rw [Reg.digit_setDigit _ _ _ hi]
  split
  · exact hv
  · exact h i hi

/-! The packed word (R43) -/

/-- R65: digit i of an unpacked word is bits 4i+3 to 4i. -/
theorem Reg.digit_unpack (w : PackedWord) {i : Nat} (h : i < 14) : (Reg.unpack w).digit i = w.extractLsb' (4 * i) 4 :=
  Reg.digit_ofFn _ h

/-- The low digit of a concatenation. -/
theorem extract_append_low {m : Nat} (h : BitVec m) (d : Digit) : (h ++ d).extractLsb' 0 4 = d := by
  apply BitVec.eq_of_getLsbD_eq
  intro j hj
  simp [BitVec.getLsbD_append, hj]

/-- Every higher digit of a concatenation is a digit of its high part. -/
theorem extract_append_high {m : Nat} (h : BitVec m) (d : Digit) (k : Nat) :
    (h ++ d).extractLsb' (k + 4) 4 = h.extractLsb' k 4 := by
  apply BitVec.eq_of_getLsbD_eq
  intro j hj
  have h4 : ¬ k + 4 + j < 4 := by omega
  have hk : k + 4 + j - 4 = k + j := by omega
  simp [BitVec.getLsbD_append, hj, h4, hk]

/-- R170: bits 4i+3 to 4i of a packed register are its digit i. -/
theorem Reg.extract_pack (r : Reg) {i : Nat} (h : i < 14) : r.pack.extractLsb' (4 * i) 4 = r.digit i := by
  unfold Reg.pack
  interval_cases i <;>
    repeat first
      | exact extract_append_low _ _
      | exact BitVec.extractLsb'_eq_self
      | refine (extract_append_high _ _ _).trans ?_

theorem Reg.unpack_pack (r : Reg) : Reg.unpack r.pack = r := by
  apply Reg.ext_digit
  intro i hi
  rw [Reg.digit_unpack _ hi, Reg.extract_pack _ hi]

/-- Two words with the same 14 nibbles are the same. -/
theorem PackedWord.ext_nibble {v w : PackedWord} (h : ∀ i < 14, v.extractLsb' (4 * i) 4 = w.extractLsb' (4 * i) 4) :
    v = w := by
  apply BitVec.eq_of_getLsbD_eq
  intro k hk
  have hj : k % 4 < 4 := Nat.mod_lt _ (by decide)
  have := congrArg (fun b : BitVec 4 => b.getLsbD (k % 4)) (h (k / 4) (by omega))
  simpa [BitVec.getLsbD_extractLsb', hj, Nat.div_add_mod] using this

theorem Reg.pack_unpack (w : PackedWord) : (Reg.unpack w).pack = w := by
  apply PackedWord.ext_nibble
  intro i hi
  rw [Reg.extract_pack _ hi, Reg.digit_unpack _ hi]

/-! The decimal string (R100 to R102) -/

/-- R101: what Parse answers when it answers a register. -/
theorem parse_eq_some {str : List Byte} {r : Reg} (h : parse str = some r) :
    str.length = 14 ∧ (∀ c ∈ str, asciiDigit c) ∧
      ∀ i < 14, r.digit i = BitVec.ofNat 4 ((str.getD (13 - i) 0).toNat - 0x30) := by
  unfold parse at h
  split at h
  · rename_i hs
    obtain rfl := Option.some.inj h
    exact ⟨hs.1, hs.2, fun i hi => by rw [Reg.digit_ofFn _ hi]⟩
  · cases h

/-- R101: Parse accepts every string of 14 ASCII digits. -/
theorem parse_isSome {str : List Byte} (hl : str.length = 14) (hd : ∀ c ∈ str, asciiDigit c) :
    ∃ r, parse str = some r := by
  exact ⟨_, by rw [parse, if_pos ⟨hl, hd⟩]⟩

/-- R101: and refuses every other. -/
theorem parse_eq_none {str : List Byte} (h : ¬ (str.length = 14 ∧ ∀ c ∈ str, asciiDigit c)) : parse str = none := by
  rw [parse, if_neg h]

theorem asciiDigit_getD {str : List Byte} (hd : ∀ c ∈ str, asciiDigit c) {k : Nat} (h : k < str.length) :
    asciiDigit (str.getD k 0) := by
  rw [List.getD_eq_getElem _ _ h]
  exact hd _ (List.getElem_mem h)

theorem digit_toNat_of_ascii {c : Byte} (h : asciiDigit c) : (BitVec.ofNat 4 (c.toNat - 0x30)).toNat = c.toNat - 0x30 := by
  rw [BitVec.toNat_ofNat]
  exact Nat.mod_eq_of_lt (by have := h.2; omega)

/-- A parsed register is decimal. -/
theorem parse_isDecimal {str : List Byte} {r : Reg} (h : parse str = some r) : r.IsDecimal := by
  obtain ⟨hl, hd, hr⟩ := parse_eq_some h
  intro i hi
  have ha := asciiDigit_getD hd (k := 13 - i) (by omega)
  rw [hr i hi, digit_toNat_of_ascii ha]
  have := ha.2
  omega

/-- R102: character k of the string is digit 13-k. -/
theorem formatByte_of_digit {r : Reg} {k : Nat} (h : (r.digit (13 - k)).toNat ≤ 9) :
    formatByte r k = BitVec.ofNat 8 (0x30 + (r.digit (13 - k)).toNat) := by
  simp [formatByte, h]

theorem formatByte_toNat {r : Reg} {k : Nat} (h : (r.digit (13 - k)).toNat ≤ 9) :
    (formatByte r k).toNat = 0x30 + (r.digit (13 - k)).toNat := by
  rw [formatByte_of_digit h, BitVec.toNat_ofNat]
  exact Nat.mod_eq_of_lt (by omega)

theorem format_getElem (r : Reg) (k : Nat) (h : k < 14) : (format r)[k] = formatByte r k := by
  simp [format]

end Sys2Proof
end

