-- ==== Sys2Proof/Laws/Canonicalizer.lean ====
section
/-! SUPPORT. What each step of the canonicalizer computes, as a closed statement instead of a loop. -/

namespace Sys2Proof.Machine

/-- R123: the digits of C before anything is copied. -/
theorem digit_initC (a : Reg) {i : Nat} (h : i < 14) :
    (initC a).digit i = if i = 13 then (if a.digit 13 = 0 then 0 else 9) else 0 := by
  rw [initC, Reg.digit_setDigit _ _ _ h, Reg.digit_zero]

theorem initC_isDecimal (a : Reg) : (initC a).IsDecimal :=
  Reg.isDecimal_zero.setDigit _ (by split <;> decide)

/-- R124: the cursor after the skip, from any start in the mantissa: it stays in the mantissa, it passes zeros only, and
it stops at a nonzero digit or at 3. -/
theorem skipLeadingZeros_spec (a : Reg) (n : Nat) (hn : 3 ≤ n) :
    3 ≤ skipLeadingZeros a n ∧ skipLeadingZeros a n ≤ n ∧
      (∀ j, skipLeadingZeros a n < j → j ≤ n → a.digit j = 0) ∧
      (a.digit (skipLeadingZeros a n) ≠ 0 ∨ skipLeadingZeros a n = 3) := by
  induction n with
  | zero => omega
  | succ n ih =>
    unfold skipLeadingZeros
    split
    · rename_i hc
      obtain ⟨h3, hle, hz, hstop⟩ := ih (by omega)
      refine ⟨h3, by omega, fun j hj hjn => ?_, hstop⟩
      rcases Nat.lt_or_ge n j with hlt | hge
      · obtain rfl : j = n + 1 := by omega
        exact hc.2
      · exact hz j hj hge
    · rename_i hc
      refine ⟨hn, Nat.le_refl _, fun j hj hjn => by omega, ?_⟩
      by_cases h4 : 4 ≤ n + 1
      · exact .inl fun hz => hc ⟨h4, hz⟩
      · exact .inr (by omega)

/-- R125, R126: the copy loop, from cursors s and d with s ≤ d: for some number n of digits, at most what the mantissa
holds, the stop mask is not 9 at the first n steps, and is 9 at step n unless the mantissa is used up; the n digits are
written from d down, and no other digit changes. -/
theorem copyMantissa_spec (m : MaskCursor) (a b : Reg) (s d : Nat) (c : Reg) (hs : 2 ≤ s) (hsd : s ≤ d) :
    ∃ n, n ≤ s - 2 ∧ (∀ j < n, maskDigit m b (s - j) (d - j) ≠ 9) ∧
      (n = s - 2 ∨ maskDigit m b (s - n) (d - n) = 9) ∧
      ∀ i < 14, (copyMantissa m a b s d c).digit i =
        if d < i + n ∧ i ≤ d then a.digit (s - (d - i)) else c.digit i := by
  induction s generalizing d c with
  | zero => omega
  | succ s ih =>
    unfold copyMantissa
    split
    · rename_i hc
      obtain ⟨n, hn, hmask, hstop, hdig⟩ := ih (d - 1) (c.setDigit d (a.digit (s + 1))) (by omega) (by omega)
      refine ⟨n + 1, by omega, fun j hj => ?_, ?_, fun i hi => ?_⟩
      · cases j with
        | zero => exact hc.2
        | succ j =>
          have := hmask j (by omega)
          rwa [show s - j = s + 1 - (j + 1) by omega, show d - 1 - j = d - (j + 1) by omega] at this
      · rcases hstop with h | h
        · exact .inl (by omega)
        · right
          rwa [show s - n = s + 1 - (n + 1) by omega, show d - 1 - n = d - (n + 1) by omega] at h
      · rw [hdig i hi, Reg.digit_setDigit _ _ _ hi]
        by_cases hid : i = d
        · subst hid
          rw [if_neg (by omega), if_pos rfl, if_pos (by omega)]
          simp
        · by_cases hin : d - 1 < i + n ∧ i ≤ d - 1
          · rw [if_pos hin, if_pos (by omega), show s - (d - 1 - i) = s + 1 - (d - i) by omega]
          · rw [if_neg hin, if_neg hid, if_neg (by omega)]
    · rename_i hc
      refine ⟨0, Nat.zero_le _, fun j hj => by omega, ?_, fun i _ => by rw [if_neg (by omega)]⟩
      by_cases h3 : 3 ≤ s + 1
      · exact .inr (Classical.not_not.mp fun hm => hc ⟨h3, hm⟩)
      · exact .inl (by omega)

/-- R31, R132: the copy depends on B only through the mask digits it meets. -/
theorem copyMantissa_congr (m : MaskCursor) (a b b' : Reg) (s d : Nat) (c : Reg) (hsd : s ≤ d) (hd : d ≤ 12)
    (h : ∀ i, 3 ≤ i → i ≤ 12 → b.digit i = b'.digit i) :
    copyMantissa m a b s d c = copyMantissa m a b' s d c := by
  induction s generalizing d c with
  | zero => rfl
  | succ s ih =>
    unfold copyMantissa
    by_cases h3 : 3 ≤ s + 1
    · have hm : maskDigit m b (s + 1) d = maskDigit m b' (s + 1) d := by
        cases m
        · exact h d (by omega) hd
        · exact h (s + 1) h3 (by omega)
      rw [hm, ih (d - 1) _ (by omega) (by omega)]
    · rw [if_neg (fun hc => h3 hc.1), if_neg (fun hc => h3 hc.1)]

theorem copyMantissa_isDecimal (m : MaskCursor) {a : Reg} (b : Reg) (ha : a.IsDecimal) (s d : Nat) {c : Reg}
    (hs : s < 14) (hc : c.IsDecimal) : (copyMantissa m a b s d c).IsDecimal := by
  induction s generalizing d c with
  | zero => exact hc
  | succ s ih =>
    unfold copyMantissa
    split
    · exact ih (d - 1) (by omega) (hc.setDigit d (ha _ hs))
    · exact hc

/-! The exponent (R127 to R129) -/

/-- R127 to R129: writing the exponent leaves the digits above it. -/
theorem digit_writeExponent_high (e : NegExpSign) (a c : Reg) {i : Nat} (h : i < 14) (h3 : 3 ≤ i) :
    (writeExponent e a c).digit i = c.digit i := by
  unfold writeExponent
  split <;>
    rw [Reg.digit_setDigit _ _ _ h, if_neg (by omega), Reg.digit_setDigit _ _ _ h, if_neg (by omega),
      Reg.digit_setDigit _ _ _ h, if_neg (by omega)]

/-- R127: the three digits of a positive exponent. -/
theorem digit_writeExponent_positive (e : NegExpSign) {a : Reg} (c : Reg) (ha : a.digit 2 = 0) :
    (writeExponent e a c).digit 2 = 0 ∧ (writeExponent e a c).digit 1 = a.digit 1 ∧
      (writeExponent e a c).digit 0 = a.digit 0 := by
  simp [writeExponent, ha, Reg.digit_setDigit]

/-- R128, R129: the three digits of a negative exponent. -/
theorem digit_writeExponent_negative (e : NegExpSign) {a : Reg} (c : Reg) (ha : a.digit 2 ≠ 0) :
    (writeExponent e a c).digit 2 = negSign e (a.digit 1) (a.digit 0) ∧
      (writeExponent e a c).digit 1 = negTens (a.digit 1) (a.digit 0) ∧
      (writeExponent e a c).digit 0 = negOnes (a.digit 0) := by
  rw [writeExponent, if_neg ha]
  simp [Reg.digit_setDigit]

theorem digit_toNat_of_le {n : Nat} (h : n ≤ 9) : (BitVec.ofNat 4 n).toNat = n := by
  rw [BitVec.toNat_ofNat]
  exact Nat.mod_eq_of_lt (by omega)

theorem negOnes_toNat (m0 : Digit) : (negOnes m0).toNat = (10 - m0.toNat) % 10 :=
  digit_toNat_of_le (by omega)

theorem negTens_toNat (m1 m0 : Digit) : (negTens m1 m0).toNat = (10 - m1.toNat - borrowOnes m0) % 10 :=
  digit_toNat_of_le (by omega)

theorem negSign_borrowOut_toNat (m1 m0 : Digit) :
    (negSign .borrowOut m1 m0).toNat = (10 - borrowTens m1 m0) % 10 :=
  digit_toNat_of_le (by omega)

theorem borrowOnes_eq (m0 : Digit) : borrowOnes m0 = if m0.toNat ≠ 0 then 1 else 0 := by
  have : m0 = 0 ↔ m0.toNat = 0 := by simp [BitVec.toNat_eq]
  simp only [borrowOnes, ne_eq, this]

/-- The sign digit of the exponent is 0 or 9 under both readings. -/
theorem negSign_zero_or_nine (e : NegExpSign) (m1 m0 : Digit) : negSign e m1 m0 = 0 ∨ negSign e m1 m0 = 9 := by
  cases e
  · by_cases h : m1.toNat + borrowOnes m0 = 0
    · exact .inl (by simp [negSign, borrowTens, h])
    · exact .inr (by simp only [negSign, borrowTens, ne_eq, h, not_false_eq_true, if_true]; rfl)
  · by_cases h : negTens m1 m0 = 0
    · exact .inl (by simp [negSign, h])
    · exact .inr (by rw [negSign, if_neg h])

theorem writeExponent_isDecimal (e : NegExpSign) {a c : Reg} (ha : a.IsDecimal) (hc : c.IsDecimal) :
    (writeExponent e a c).IsDecimal := by
  unfold writeExponent
  split
  · exact ((hc.setDigit _ (ha 2 (by decide))).setDigit _ (ha 1 (by decide))).setDigit _ (ha 0 (by decide))
  · refine ((hc.setDigit _ ?_).setDigit _ ?_).setDigit _ ?_
    · rcases negSign_zero_or_nine e (a.digit 1) (a.digit 0) with h | h <;> rw [h] <;> decide
    · rw [negTens_toNat]
      omega
    · rw [negOnes_toNat]
      omega

/-! The whole function -/

/-- R131: canonicalization writes only digits. -/
theorem canonicalize_isDecimal (p : Config) {a : Reg} (b : Reg) (ha : a.IsDecimal) : (canonicalize p a b).IsDecimal :=
  writeExponent_isDecimal _ ha
    (copyMantissa_isDecimal _ _ ha _ _
      (by have := (skipLeadingZeros_spec a 12 (by decide)).2.1; omega) (initC_isDecimal a))

end Sys2Proof.Machine
end

