-- ==== Sys2Proof/Laws/Decode.lean ====
section
/-! SUPPORT. The fields of a command word, and the decoder opcode by opcode. -/

namespace Sys2Proof

/-- R61: op is the high digit of the command word. -/
theorem Command.op_toNat (c : Command) : c.op.toNat = c.cmd.toNat / 16 := by
  have := c.cmd.isLt
  rw [Command.op, BitVec.extractLsb'_toNat, Nat.shiftRight_eq_div_pow]
  omega

/-- R61: arg is the low digit of the command word. -/
theorem Command.arg_toNat (c : Command) : c.arg.toNat = c.cmd.toNat % 16 := by
  rw [Command.arg, BitVec.extractLsb'_toNat, Nat.shiftRight_zero]

theorem cmdWord_toNat (op arg : BitVec 4) : (cmdWord op arg).toNat = 16 * op.toNat + arg.toNat := by
  have := arg.isLt
  rw [cmdWord, BitVec.toNat_append, ← Nat.shiftLeft_add_eq_or_of_lt this, Nat.shiftLeft_eq]
  omega

/-- R61: the fields of a word built from them. -/
theorem op_cmdWord (op arg : BitVec 4) : (cmdWord op arg).extractLsb' 4 4 = op := by
  apply BitVec.eq_of_toNat_eq
  have := arg.isLt
  have := op.isLt
  rw [BitVec.extractLsb'_toNat, cmdWord_toNat, Nat.shiftRight_eq_div_pow]
  omega

theorem arg_cmdWord (op arg : BitVec 4) : (cmdWord op arg).extractLsb' 0 4 = arg := by
  apply BitVec.eq_of_toNat_eq
  have := arg.isLt
  rw [BitVec.extractLsb'_toNat, cmdWord_toNat, Nat.shiftRight_zero]
  omega

/-- R61: the two fields make up the word. -/
theorem Command.cmdWord_op_arg (c : Command) : cmdWord c.op c.arg = c.cmd := by
  apply BitVec.eq_of_toNat_eq
  rw [cmdWord_toNat, Command.op_toNat, Command.arg_toNat]
  omega

/-- R61: the fields of a word given as a number. -/
theorem Command.fields_of_toNat {c : Command} {op arg : Nat} (h : c.cmd.toNat = 16 * op + arg) (ha : arg < 16) :
    c.op.toNat = op ∧ c.arg.toNat = arg := by
  rw [Command.op_toNat, Command.arg_toNat]
  omega

/-- R24: a register has its own identifier. -/
theorem RegId.ofCode_code (r : RegId) : RegId.ofCode r.code = some r := by cases r <;> rfl

theorem RegId.code_of_ofCode {n : BitVec 4} {r : RegId} (h : RegId.ofCode n = some r) : r.code = n := by
  have all : ∀ n : BitVec 4, (RegId.ofCode n).all (fun r => r.code == n) = true := by decide
  have := all n
  rw [h] at this
  simpa using this

/-- R42, R63: exactly the identifiers 0 to 6 name a register. -/
theorem RegId.ofCode_eq_none_iff (n : BitVec 4) : RegId.ofCode n = none ↔ 7 ≤ n.toNat := by
  revert n
  decide

/-! Everything the decoder can answer -/

theorem decodeReg_eq_ok {n : BitVec 4} {k : RegId → Instr} {i : Instr} (h : decodeReg n k = .ok i) :
    ∃ r, r.code = n ∧ i = k r := by
  unfold decodeReg at h
  split at h
  · rename_i r hr
    cases h
    exact ⟨r, RegId.code_of_ofCode hr, rfl⟩
  · cases h

theorem decodeDp_eq_ok {n : BitVec 4} {k : Nat → Instr} {i : Instr} (h : decodeDp n k = .ok i) :
    dpLegal n.toNat ∧ i = k n.toNat := by
  unfold decodeDp at h
  split at h
  · rename_i hdp
    cases h
    exact ⟨hdp, rfl⟩
  · cases h

/-- R62 to R66: an instruction decoded is one of the seven, its opcode and its operands taken from their fields and
ports. -/
theorem decode_cases {c : Command} {i : Instr} (h : decode c = .ok i) :
    (c.op.toNat = 1 ∧ ∃ r, r.code = c.arg ∧ i = .get r) ∨
    (c.op.toNat = 2 ∧ ∃ r, r.code = c.arg ∧ i = .set r c.wdata) ∨
    (c.op.toNat = 3 ∧ ∃ r, r.code = c.arg ∧ i = .gets r) ∨
    (c.op.toNat = 4 ∧ ∃ r, r.code = c.arg ∧ i = .sets r c.sdata) ∨
    (c.op.toNat = 5 ∧ c.arg = 0 ∧ i = .canon) ∨
    (c.op.toNat = 6 ∧ dpLegal c.arg.toNat ∧ i = .masks c.arg.toNat) ∨
    (c.op.toNat = 7 ∧ dpLegal c.arg.toNat ∧ i = .display c.arg.toNat) := by
  unfold decode at h
  split at h
  · exact .inl ⟨‹_›, decodeReg_eq_ok h⟩
  · exact .inr (.inl ⟨‹_›, decodeReg_eq_ok h⟩)
  · exact .inr (.inr (.inl ⟨‹_›, decodeReg_eq_ok h⟩))
  · exact .inr (.inr (.inr (.inl ⟨‹_›, decodeReg_eq_ok h⟩)))
  · split at h
    · cases h
      exact .inr (.inr (.inr (.inr (.inl ⟨‹_›, ‹_›, rfl⟩))))
    · cases h
  · exact .inr (.inr (.inr (.inr (.inr (.inl ⟨‹_›, decodeDp_eq_ok h⟩)))))
  · exact .inr (.inr (.inr (.inr (.inr (.inr ⟨‹_›, decodeDp_eq_ok h⟩)))))
  · cases h

end Sys2Proof
end

