-- ==== Sys2Proof/Laws/Display.lean ====
section
/-! SUPPORT. What each display position shows (R154). -/

namespace Sys2Proof.Machine

/-- R151: the mask of a digit 0 to 9 is its entry of the table. -/
theorem segDigit_of_digit (t : SegTable) (x : Reg) (dp p : Nat) {k : Digit} (h : k.toNat < 10) :
    segDigit t x dp p k = t.digit[k.toNat] := by
  simp [segDigit, h]

theorem segDigit_getElem? (t : SegTable) (x : Reg) (dp p : Nat) {k : Digit} (h : k.toNat ≤ 9) :
    t.digit[k.toNat]? = some (segDigit t x dp p k) := by
  have h' : k.toNat < 10 := by omega
  rw [segDigit_of_digit t x dp p h', Vector.getElem?_eq_getElem h']

/-- R153: position p of the 15. -/
theorem decodeDisplay_getElem (t : SegTable) (x : Reg) (dp p : Nat) (h : p < 15) :
    (decodeDisplay t x dp)[p] = positionMask t x dp p := by
  simp [decodeDisplay]

theorem positionMask_mantissa (t : SegTable) (x : Reg) (dp : Nat) {k : Nat} (h1 : 1 ≤ k) (h10 : k ≤ 10) :
    positionMask t x dp k =
      if k = dp then segDigit t x dp k (x.digit (13 - k)) ||| t.point else segDigit t x dp k (x.digit (13 - k)) := by
  rw [positionMask, if_neg (by omega), if_pos h10]

theorem segSign_cases (t : SegTable) (k : Digit) : segSign t k = t.minus ∨ segSign t k = t.blank := by
  unfold segSign
  split
  · exact .inl rfl
  · exact .inr rfl

end Sys2Proof.Machine
end

