-- ==== Sys2Proof/Laws/State.lean ====
section
/-! SUPPORT. One lemma per field per update of the state, so that no proof unfolds a record update, and the read-after-write
laws of the register file. -/

namespace Sys2Proof.Machine

/-! Writing a register -/

@[simp] theorem State.setReg_fault (s : State) (r : RegId) (v : Reg) : (s.setReg r v).fault = s.fault := rfl
@[simp] theorem State.setReg_config (s : State) (r : RegId) (v : Reg) : (s.setReg r v).config = s.config := rfl
@[simp] theorem State.setReg_inputs (s : State) (r : RegId) (v : Reg) : (s.setReg r v).inputs = s.inputs := rfl
@[simp] theorem State.setReg_response (s : State) (r : RegId) (v : Reg) : (s.setReg r v).response = s.response := rfl

/-- Read after write: the register written holds the value, every other register what it held. -/
theorem RegFile.get_set (f : RegFile) (r q : RegId) (v : Reg) : (f.set r v).get q = if q = r then v else f.get q := by
  cases r <;> cases q <;> rfl

theorem State.reg_setReg (s : State) (r q : RegId) (v : Reg) : (s.setReg r v).reg q = if q = r then v else s.reg q :=
  RegFile.get_set s.rf r q v

@[simp] theorem State.reg_setReg_self (s : State) (r : RegId) (v : Reg) : (s.setReg r v).reg r = v := by
  simp [State.reg_setReg]

theorem State.reg_setReg_of_ne {r q : RegId} (h : q ≠ r) (s : State) (v : Reg) : (s.setReg r v).reg q = s.reg q := by
  simp [State.reg_setReg, h]

/-- The last write to a register is the one that stands. -/
theorem State.setReg_setReg (s : State) (r : RegId) (v w : Reg) : (s.setReg r v).setReg r w = s.setReg r w := by
  cases r <;> rfl

/-- Two register files with the same seven registers are the same. -/
theorem RegFile.ext_get {f g : RegFile} (h : ∀ r, f.get r = g.get r) : f = g := by
  cases f; cases g
  simp only [RegFile.mk.injEq]
  exact ⟨h .a, h .b, h .x, h .y, h .z, h .t, h .s⟩

/-! Answering -/

@[simp] theorem State.answer_rf (s : State) (p : Response) : (s.answer p).rf = s.rf := rfl
@[simp] theorem State.answer_fault (s : State) (p : Response) : (s.answer p).fault = s.fault := rfl
@[simp] theorem State.answer_config (s : State) (p : Response) : (s.answer p).config = s.config := rfl
@[simp] theorem State.answer_inputs (s : State) (p : Response) : (s.answer p).inputs = s.inputs := rfl
@[simp] theorem State.answer_response (s : State) (p : Response) : (s.answer p).response = some p := rfl
@[simp] theorem State.answer_reg (s : State) (p : Response) (r : RegId) : (s.answer p).reg r = s.reg r := rfl

theorem State.answer_answer (s : State) (p q : Response) : (s.answer p).answer q = s.answer q := rfl

theorem State.answer_setReg (s : State) (p : Response) (r : RegId) (v : Reg) :
    (s.answer p).setReg r v = (s.setReg r v).answer p := rfl

/-! Replacing any other field leaves the registers -/

@[simp] theorem State.reg_mk (f : RegFile) (b : Bool) (p : Config) (l : List HostInput) (o : Option Response) (r : RegId) :
    State.reg ⟨f, b, p, l, o⟩ r = f.get r := rfl
@[simp] theorem State.rf_get (s : State) (r : RegId) : s.rf.get r = s.reg r := rfl

/-! A response without data -/

@[simp] theorem Response.bare_status (e : Status) : (Response.bare e).status = e := rfl
@[simp] theorem Response.bare_rdata (e : Status) : (Response.bare e).rdata = 0 := rfl
@[simp] theorem Response.bare_sout (e : Status) : (Response.bare e).sout = Vector.replicate 14 0 := rfl
@[simp] theorem Response.bare_masks (e : Status) : (Response.bare e).masks = Vector.replicate 15 0 := rfl

/-- R200: the five codes are distinct, so a host can tell the statuses apart. -/
theorem Status.code_injective {e f : Status} (h : e.code = f.code) : e = f := by
  cases e <;> cases f <;> first | rfl | exact absurd h (by decide)

/-- R200: codes 5 to 7 are never produced. -/
theorem Status.code_lt (e : Status) : e.code.toNat < 5 := by cases e <;> decide

/-- R240: the reset value of each register. -/
theorem State.reset_reg (r : RegId) : State.reset.reg r = resetReg r := by cases r <;> rfl

end Sys2Proof.Machine
end

