-- ==== Sys2Proof/Laws/Ops.lean ====
section
/-! SUPPORT. What each shared operation and each meaning does, case by case: the lemmas a proof cites instead of unfolding
them. -/

namespace Sys2Proof.Machine

/-! The shared operations -/

/-- R205: with STAT.FAULT set a command answers FAULTED, whatever it is. -/
theorem unlessFaulted_of_fault {s : State} (h : s.fault = true) (k : State → Result) :
    unlessFaulted s k = .next (s.answer (Response.bare .faulted)) := by
  simp [unlessFaulted, raise, h]

/-- With STAT.FAULT clear a command goes on. -/
theorem unlessFaulted_of_clear {s : State} (h : s.fault = false) (k : State → Result) : unlessFaulted s k = k s := by
  simp [unlessFaulted, h]

theorem checkDigits_of_ok {s : State} (h : s.InputDigitsOk) (k : State → Result) : checkDigits s k = k s :=
  if_pos h

/-- R203: what an invariant violation does. -/
theorem checkDigits_of_bad {s : State} (h : ¬ s.InputDigitsOk) (k : State → Result) :
    checkDigits s k = .next ({ s with fault := true }.answer (Response.bare .invariantViolation)) :=
  if_neg h

theorem withLegalDp_of_legal {dp : Nat} (h : dpLegal dp) (s : State) (k : State → Result) : withLegalDp dp s k = k s :=
  if_pos h

theorem withLegalDp_of_illegal {dp : Nat} (h : ¬ dpLegal dp) (s : State) (k : State → Result) :
    withLegalDp dp s k = .next (s.answer (Response.bare .illegal)) :=
  if_neg h

/-- The state after CANON's steps. -/
def afterCanon (s : State) : State := s.setReg .x (canonicalize s.config (s.reg .a) (s.reg .b))

@[simp] theorem afterCanon_fault (s : State) : (afterCanon s).fault = s.fault := rfl
@[simp] theorem afterCanon_config (s : State) : (afterCanon s).config = s.config := rfl
@[simp] theorem afterCanon_inputs (s : State) : (afterCanon s).inputs = s.inputs := rfl
@[simp] theorem afterCanon_x (s : State) :
    (afterCanon s).reg .x = canonicalize s.config (s.reg .a) (s.reg .b) := State.reg_setReg_self _ _ _

theorem afterCanon_reg_of_ne {q : RegId} (h : q ≠ .x) (s : State) : (afterCanon s).reg q = s.reg q :=
  State.reg_setReg_of_ne h _ _

theorem canonSteps_of_ok {s : State} (h : s.InputDigitsOk) (k : State → Result) : canonSteps s k = k (afterCanon s) :=
  checkDigits_of_ok h _

theorem canonSteps_of_bad {s : State} (h : ¬ s.InputDigitsOk) (k : State → Result) :
    canonSteps s k = .next ({ s with fault := true }.answer (Response.bare .invariantViolation)) :=
  checkDigits_of_bad h _

/-! The meanings, with STAT.FAULT clear -/

theorem execIllegal_of_clear {s : State} (h : s.fault = false) (e : DecodeError) :
    execIllegal e s = .next (s.answer (Response.bare .illegal)) :=
  unlessFaulted_of_clear h _

theorem execGet_of_clear {s : State} (h : s.fault = false) (r : RegId) :
    execGet r s = .next (s.answer { Response.bare .ok with rdata := (s.reg r).pack }) :=
  unlessFaulted_of_clear h _

theorem execSet_of_decimal {s : State} (h : s.fault = false) (r : RegId) {w : PackedWord}
    (hw : (Reg.unpack w).IsDecimal) :
    execSet r w s = .next ((s.setReg r (Reg.unpack w)).answer (Response.bare .ok)) :=
  (unlessFaulted_of_clear h _).trans (if_pos hw)

theorem execSet_of_not_decimal {s : State} (h : s.fault = false) (r : RegId) {w : PackedWord}
    (hw : ¬ (Reg.unpack w).IsDecimal) : execSet r w s = .next (s.answer (Response.bare .illegal)) :=
  (unlessFaulted_of_clear h _).trans (if_neg hw)

theorem execGets_of_clear {s : State} (h : s.fault = false) (r : RegId) :
    execGets r s = .next (s.answer { Response.bare .ok with sout := format (s.reg r) }) :=
  unlessFaulted_of_clear h _

theorem execSets_of_some {s : State} (h : s.fault = false) (r : RegId) {str : List Byte} {v : Reg}
    (hp : parse str = some v) : execSets r str s = .next ((s.setReg r v).answer (Response.bare .ok)) := by
  simp only [execSets, unlessFaulted_of_clear h, hp, respondOk]

theorem execSets_of_none {s : State} (h : s.fault = false) (r : RegId) {str : List Byte} (hp : parse str = none) :
    execSets r str s = .next (s.answer (Response.bare .formatError)) := by
  simp only [execSets, unlessFaulted_of_clear h, hp, raise]

theorem execCanon_of_ok {s : State} (h : s.fault = false) (hd : s.InputDigitsOk) :
    execCanon s = .next ((afterCanon s).answer (Response.bare .ok)) :=
  (unlessFaulted_of_clear h _).trans (canonSteps_of_ok hd _)

theorem execCanon_of_bad {s : State} (h : s.fault = false) (hd : ¬ s.InputDigitsOk) :
    execCanon s = .next ({ s with fault := true }.answer (Response.bare .invariantViolation)) :=
  (unlessFaulted_of_clear h _).trans (canonSteps_of_bad hd _)

theorem execMasks_of_legal {s : State} (h : s.fault = false) {dp : Nat} (hdp : dpLegal dp) :
    execMasks dp s =
      .next (s.answer { Response.bare .ok with masks := decodeDisplay s.config.seg (s.reg .x) dp }) :=
  (unlessFaulted_of_clear h _).trans (withLegalDp_of_legal hdp _ _)

theorem execMasks_of_illegal {s : State} (h : s.fault = false) {dp : Nat} (hdp : ¬ dpLegal dp) :
    execMasks dp s = .next (s.answer (Response.bare .illegal)) :=
  (unlessFaulted_of_clear h _).trans (withLegalDp_of_illegal hdp _ _)

theorem execDisplay_of_illegal {s : State} (h : s.fault = false) {dp : Nat} (hdp : ¬ dpLegal dp) :
    execDisplay dp s = .next (s.answer (Response.bare .illegal)) :=
  (unlessFaulted_of_clear h _).trans (withLegalDp_of_illegal hdp _ _)

theorem execDisplay_of_bad {s : State} (h : s.fault = false) {dp : Nat} (hdp : dpLegal dp) (hd : ¬ s.InputDigitsOk) :
    execDisplay dp s = .next ({ s with fault := true }.answer (Response.bare .invariantViolation)) :=
  (unlessFaulted_of_clear h _).trans ((withLegalDp_of_legal hdp _ _).trans (canonSteps_of_bad hd _))

theorem execDisplay_of_ok {s : State} (h : s.fault = false) {dp : Nat} (hdp : dpLegal dp) (hd : s.InputDigitsOk) :
    execDisplay dp s =
      .next ((afterCanon s).answer
        { Response.bare .ok with masks := decodeDisplay s.config.seg (canonicalize s.config (s.reg .a) (s.reg .b)) dp }) := by
  rw [execDisplay, unlessFaulted_of_clear h, withLegalDp_of_legal hdp, canonSteps_of_ok hd]
  simp [respondDisplay, respondMasks, afterCanon]

/-- R205: every command of the table, with STAT.FAULT set. -/
theorem exec_of_fault {s : State} (h : s.fault = true) (i : Instr) :
    exec i s = .next (s.answer (Response.bare .faulted)) := by
  cases i <;>
    simp only [exec, execGet, execSet, execGets, execSets, execCanon, execMasks, execDisplay, unlessFaulted_of_fault h]

/-! The step -/

/-- R6: presenting a command; the step takes it and runs it. -/
theorem step_command {s : State} {c : Command} {rest : List HostInput} (h : s.inputs = .command c :: rest) :
    step s = match decode c with
      | .ok i => exec i { s with inputs := rest }
      | .error e => execIllegal e { s with inputs := rest } := by
  cases hd : decode c <;> simp only [step, nextInput, h, hd]

/-- R240: the reset signal. -/
theorem step_resetSignal {s : State} {rest : List HostInput} (h : s.inputs = .resetSignal :: rest) :
    step s = .next { State.reset with config := s.config, inputs := rest } := by
  simp only [step, nextInput, h]
  rfl

/-- Everything a step can do: nothing is presented, the reset signal is taken, or a command is. -/
theorem step_cases (s : State) :
    (s.inputs = [] ∧ step s = idle s) ∨
    (∃ rest, s.inputs = .resetSignal :: rest ∧ step s = takeReset { s with inputs := rest }) ∨
    (∃ c rest i, s.inputs = .command c :: rest ∧ decode c = .ok i ∧ step s = exec i { s with inputs := rest }) ∨
    (∃ c rest e, s.inputs = .command c :: rest ∧ decode c = .error e ∧
      step s = execIllegal e { s with inputs := rest }) := by
  match h : s.inputs with
  | [] => exact .inl ⟨rfl, by simp only [step, nextInput, h]⟩
  | .resetSignal :: rest => exact .inr (.inl ⟨rest, rfl, by simp only [step, nextInput, h]⟩)
  | .command c :: rest =>
    match hd : decode c with
    | .ok i => exact .inr (.inr (.inl ⟨c, rest, i, rfl, hd, by simp only [step_command h, hd]⟩))
    | .error e => exact .inr (.inr (.inr ⟨c, rest, e, rfl, hd, by simp only [step_command h, hd]⟩))

end Sys2Proof.Machine
end

