-- ==== Sys2Proof/Laws/PerInstr.lean ====
section
/-! SUPPORT. Families of lemmas about every instruction, one lemma a constructor. -/

namespace Sys2Proof.Laws

/-- R61, R62: the command word of an instruction carries its opcode in bits 7:4. -/
def WordCarriesOpcode.Statement (i : Instr) : Prop := (encode i).op = i.opcode

namespace WordCarriesOpcode

theorem get (r : RegId) : Statement (.get r) := op_cmdWord _ _
theorem set (r : RegId) (w : PackedWord) : Statement (.set r w) := op_cmdWord _ _
theorem gets (r : RegId) : Statement (.gets r) := op_cmdWord _ _
theorem sets (r : RegId) (str : List Byte) : Statement (.sets r str) := op_cmdWord _ _
theorem canon : Statement .canon := op_cmdWord _ _
theorem masks (dp : Nat) : Statement (.masks dp) := op_cmdWord _ _
theorem display (dp : Nat) : Statement (.display dp) := op_cmdWord _ _

end WordCarriesOpcode

end Sys2Proof.Laws
end

