-- ==== Sys2Proof/Laws/Safety.lean ====
section
/-! SUPPORT. The terms of Safety.lean, each tied once to the definition it speaks of, and everything a command can do. -/

namespace Sys2Proof.Machine

/-! Frames and answers -/

theorem Changes.answer (s : State) (p : Response) : Changes [] s (s.answer p) := ⟨fun _ _ => rfl, rfl, rfl, rfl⟩

theorem Changes.setReg_answer (s : State) (r : RegId) (v : Reg) (p : Response) :
    Changes [r] s ((s.setReg r v).answer p) := by
  refine ⟨fun q hq => ?_, rfl, rfl, rfl⟩
  rw [State.answer_reg, State.reg_setReg_of_ne (by simpa using hq)]

theorem Answers.bare (s : State) (e : Status) : Answers (s.answer (Response.bare e)) e :=
  ⟨_, rfl, rfl, rfl, rfl, rfl⟩

/-! What is legal -/

/-- R65: a packed value is a register value exactly when no nibble is above 9. -/
theorem isDecimal_unpack_iff (w : PackedWord) : (Reg.unpack w).IsDecimal ↔ ∀ i < 14, (nibble w i).toNat ≤ 9 :=
  forall₂_congr fun i hi => by rw [Reg.digit_unpack w hi]

theorem not_isDecimal_unpack_iff (w : PackedWord) :
    ¬ (Reg.unpack w).IsDecimal ↔ ∃ i < 14, 9 < (nibble w i).toNat := by
  rw [isDecimal_unpack_iff]
  simp only [not_forall, not_le, exists_prop]

theorem forall_mem_ascii_iff {str : List Byte} (h : str.length = 14) :
    (∀ c ∈ str, asciiDigit c) ↔ ∀ k < 14, asciiDigit (str.getD k 0) := by
  refine ⟨fun hd k hk => asciiDigit_getD hd (by omega), fun hd c hc => ?_⟩
  obtain ⟨k, hk, rfl⟩ := List.getElem_of_mem hc
  have := hd k (by omega)
  rwa [List.getD_eq_getElem _ _ hk] at this

/-- R101: Parse answers FormatError on every string but those of 14 ASCII digits. -/
theorem parse_eq_none_iff (str : List Byte) : parse str = none ↔ ¬ DecimalString str := by
  unfold parse
  by_cases hl : str.length = 14
  · split <;> rename_i h <;> rw [forall_mem_ascii_iff hl] at h
    · exact ⟨(fun hn => by cases hn), fun hn => absurd h hn⟩
    · exact ⟨fun _ => h, fun _ => rfl⟩
  · rw [if_neg fun h => hl h.1]
    exact ⟨fun _ h => hl h.1, fun _ => rfl⟩

/-- R67: the words the decoder rejects are the words of the rule's list. -/
theorem illegalWord_iff (c : Command) : IllegalWord c.cmd ↔ ∃ e, decode c = .error e := by
  have ho := c.op.isLt
  have ha := c.arg.isLt
  have hr := RegId.ofCode_eq_none_iff c.arg
  unfold IllegalWord IllegalFields
  simp only [← Command.op_toNat, ← Command.arg_toNat]
  constructor
  · intro h
    cases hd : decode c with
    | error e => exact ⟨e, rfl⟩
    | ok i =>
      exfalso
      have named {r : RegId} (hc : r.code = c.arg) : c.arg.toNat < 7 := by
        have hn := RegId.ofCode_code r
        rw [hc] at hn
        by_contra h7
        rw [hr.2 (by omega)] at hn
        cases hn
      rcases decode_cases hd with ⟨h', r, hc, _⟩ | ⟨h', r, hc, _⟩ | ⟨h', r, hc, _⟩ | ⟨h', r, hc, _⟩ | ⟨h', h0, _⟩ |
        ⟨h', hdp, _⟩ | ⟨h', hdp, _⟩
      · have := named hc; omega
      · have := named hc; omega
      · have := named hc; omega
      · have := named hc; omega
      · have : c.arg.toNat = 0 := by rw [h0]; rfl
        omega
      · have := hdp.1; have := hdp.2; omega
      · have := hdp.1; have := hdp.2; omega
  · rintro ⟨e, he⟩
    have reg (k : RegId → Instr) (h : decodeReg c.arg k = .error e) : 7 ≤ c.arg.toNat := by
      unfold decodeReg at h
      split at h
      · cases h
      · exact hr.1 ‹_›
    have dp (k : Nat → Instr) (h : decodeDp c.arg k = .error e) : ¬ (1 ≤ c.arg.toNat ∧ c.arg.toNat ≤ 10) := by
      unfold decodeDp at h
      split at h
      · cases h
      · assumption
    unfold decode at he
    split at he
    · have := reg _ he; omega
    · have := reg _ he; omega
    · have := reg _ he; omega
    · have := reg _ he; omega
    · split at he
      · cases he
      · rename_i h0
        have : c.arg.toNat ≠ 0 := fun hn => h0 (BitVec.eq_of_toNat_eq hn)
        omega
    · have := dp _ he; omega
    · have := dp _ he; omega
    · rename_i h1 h2 h3 h4 h5 h6 h7
      have : ¬ (1 ≤ c.op.toNat ∧ c.op.toNat ≤ 7) := by
        rintro ⟨hlo, hhi⟩
        generalize c.op.toNat = n at *
        interval_cases n <;> contradiction
      omega

/-! Everything a command can do -/

/-- The outcomes of a command with STAT.FAULT clear: it completes with its own effect, or it ends in one of the three
errors that a command of the table can raise (R200, R207). -/
inductive CommandOutcome (s : State) : Instr → Response → State → Prop where
  | get (r : RegId) : CommandOutcome s (.get r) { Response.bare .ok with rdata := (s.reg r).pack } s
  | set (r : RegId) (w : PackedWord) : (Reg.unpack w).IsDecimal →
      CommandOutcome s (.set r w) (Response.bare .ok) (s.setReg r (Reg.unpack w))
  | gets (r : RegId) : CommandOutcome s (.gets r) { Response.bare .ok with sout := format (s.reg r) } s
  | sets (r : RegId) (str : List Byte) (v : Reg) : parse str = some v →
      CommandOutcome s (.sets r str) (Response.bare .ok) (s.setReg r v)
  | canon : s.InputDigitsOk → CommandOutcome s .canon (Response.bare .ok) (afterCanon s)
  | masks (dp : Nat) : dpLegal dp →
      CommandOutcome s (.masks dp) { Response.bare .ok with masks := decodeDisplay s.config.seg (s.reg .x) dp } s
  | display (dp : Nat) : dpLegal dp → s.InputDigitsOk →
      CommandOutcome s (.display dp)
        { Response.bare .ok with masks := decodeDisplay s.config.seg (canonicalize s.config (s.reg .a) (s.reg .b)) dp }
        (afterCanon s)
  | setIllegal (r : RegId) (w : PackedWord) : ¬ (Reg.unpack w).IsDecimal →
      CommandOutcome s (.set r w) (Response.bare .illegal) s
  | masksIllegal (dp : Nat) : ¬ dpLegal dp → CommandOutcome s (.masks dp) (Response.bare .illegal) s
  | displayIllegal (dp : Nat) : ¬ dpLegal dp → CommandOutcome s (.display dp) (Response.bare .illegal) s
  | formatError (r : RegId) (str : List Byte) : parse str = none →
      CommandOutcome s (.sets r str) (Response.bare .formatError) s
  | canonViolation : ¬ s.InputDigitsOk →
      CommandOutcome s .canon (Response.bare .invariantViolation) { s with fault := true }
  | displayViolation (dp : Nat) : dpLegal dp → ¬ s.InputDigitsOk →
      CommandOutcome s (.display dp) (Response.bare .invariantViolation) { s with fault := true }

/-- Every command, with STAT.FAULT clear, has one of these outcomes; with STAT.FAULT set, see exec_of_fault. -/
theorem exec_outcome {s : State} (h : s.fault = false) (i : Instr) :
    ∃ p t, CommandOutcome s i p t ∧ exec i s = .next (t.answer p) := by
  cases i with
  | get r => exact ⟨_, _, .get r, execGet_of_clear h r⟩
  | set r w =>
    by_cases hw : (Reg.unpack w).IsDecimal
    · exact ⟨_, _, .set r w hw, execSet_of_decimal h r hw⟩
    · exact ⟨_, _, .setIllegal r w hw, execSet_of_not_decimal h r hw⟩
  | gets r => exact ⟨_, _, .gets r, execGets_of_clear h r⟩
  | sets r str =>
    cases hp : parse str with
    | some v => exact ⟨_, _, .sets r str v hp, execSets_of_some h r hp⟩
    | none => exact ⟨_, _, .formatError r str hp, execSets_of_none h r hp⟩
  | canon =>
    by_cases hd : s.InputDigitsOk
    · exact ⟨_, _, .canon hd, execCanon_of_ok h hd⟩
    · exact ⟨_, _, .canonViolation hd, execCanon_of_bad h hd⟩
  | masks dp =>
    by_cases hdp : dpLegal dp
    · exact ⟨_, _, .masks dp hdp, execMasks_of_legal h hdp⟩
    · exact ⟨_, _, .masksIllegal dp hdp, execMasks_of_illegal h hdp⟩
  | display dp =>
    by_cases hdp : dpLegal dp
    · by_cases hd : s.InputDigitsOk
      · exact ⟨_, _, .display dp hdp hd, execDisplay_of_ok h hdp hd⟩
      · exact ⟨_, _, .displayViolation dp hdp hd, execDisplay_of_bad h hdp hd⟩
    · exact ⟨_, _, .displayIllegal dp hdp, execDisplay_of_illegal h hdp⟩

/-- R240: the reset state's registers hold digits only. -/
theorem isDecimal_reset (r : RegId) : (State.reset.reg r).IsDecimal := by cases r <;> decide

end Sys2Proof.Machine
end

