-- ==== Sys2Proof/Tests/Slice0.lean ====
section
/-! SUPPORT. Tests of the model, each with its source in the spec, and a witness for the hypotheses of each statement. The
expected values are those of 95_test_vectors.md (V1 to V78) or of the rule named. -/

namespace Sys2Proof.Tests

open Sys2Proof Sys2Proof.Machine

/-- The reset state with A, B and X set to packed words. -/
def regs (a b x : PackedWord) : State :=
  { State.reset with rf := { RegFile.reset with a := Reg.unpack a, b := Reg.unpack b, x := Reg.unpack x } }

/-- One step on a command. -/
def serve (s : State) (w : BitVec 8) (wdata : PackedWord := 0) (sdata : List Byte := []) : Result :=
  step (s.present { cmd := w, wdata := wdata, sdata := sdata })

/-- The response after a step. -/
def responseOf : Result → Option Response
  | .next t => t.response
  | .fault _ => none
  | .refused _ => none

/-- The status after a step. -/
def statusOf (o : Result) : Option Status := (responseOf o).map Response.status

/-- A register after a step, packed. -/
def regOf (o : Result) (r : RegId) : Option PackedWord :=
  match o with
  | .next t => some (t.reg r).pack
  | .fault _ => none
  | .refused _ => none

/-- The state after a step. -/
def stateOf : Result → Option State
  | .next t => some t
  | .fault _ => none
  | .refused _ => none

/-- The masks after a step. -/
def masksOf (o : Result) : Option (Vector Mask 15) := (responseOf o).map Response.masks

/-- The bytes of a string, its characters given as offsets from '0'. -/
def str (l : List Nat) : List Byte := l.map fun d => BitVec.ofNat 8 (0x30 + d)

/-! WellFormed: an ill-formed term for each check, and the terms at its edges. -/

theorem test_wellFormed_refuses_masks_dp_0 : (Instr.masks 0).WellFormed = false := by decide
theorem test_wellFormed_refuses_masks_dp_11 : (Instr.masks 11).WellFormed = false := by decide
theorem test_wellFormed_refuses_display_dp_0 : (Instr.display 0).WellFormed = false := by decide
theorem test_wellFormed_refuses_display_dp_11 : (Instr.display 11).WellFormed = false := by decide
/-- More bytes than slen counts, 256 among them. -/
theorem test_wellFormed_refuses_sets_over_255_bytes (n : Nat) (h : 255 < n) :
    (Instr.sets .a (List.replicate n 0x30)).WellFormed = false := by
  simpa [Instr.WellFormed] using h
theorem test_command_over_255_bytes_is_not_wellFormed (n : Nat) (h : 255 < n) :
    ¬ Command.WellFormed { cmd := 0x40, wdata := 0, sdata := List.replicate n 0x30 } := by
  simpa [Command.WellFormed] using h
theorem test_wellFormed_accepts_edges :
    (Instr.masks 1).WellFormed = true ∧ (Instr.display 10).WellFormed = true ∧
    (Instr.sets .a (List.replicate 14 0x30)).WellFormed = true := by decide

/-! Decode (R61 to R67): a word of each constructor, written out from the opcode map of R62, and each rejection by name. -/

theorem test_decode_get_s : decode (Command.ofWord 0b00010110) = .ok (.get .s) := by decide
theorem test_decode_set_b :
    decode { cmd := 0b00100001, wdata := 0x02999999999000, sdata := [0x41] } = .ok (.set .b 0x02999999999000) := by
  decide
theorem test_decode_gets_t : decode (Command.ofWord 0b00110101) = .ok (.gets .t) := by decide
theorem test_decode_sets_z :
    decode { cmd := 0b01000100, wdata := 7, sdata := [0x30, 0x39] } = .ok (.sets .z [0x30, 0x39]) := by decide
theorem test_decode_canon : decode (Command.ofWord 0b01010000) = .ok .canon := by decide
theorem test_decode_masks_10 : decode (Command.ofWord 0b01101010) = .ok (.masks 10) := by decide
theorem test_decode_display_1 : decode (Command.ofWord 0b01110001) = .ok (.display 1) := by decide
theorem test_decode_rejects_by_name :
    decode (Command.ofWord 0x00) = .error (.reservedOpcode 0) ∧ decode (Command.ofWord 0x80) = .error (.reservedOpcode 8) ∧
    decode (Command.ofWord 0xFF) = .error (.reservedOpcode 15) ∧ decode (Command.ofWord 0x17) = .error (.noSuchRegister 7) ∧
    decode (Command.ofWord 0x2F) = .error (.noSuchRegister 15) ∧ decode (Command.ofWord 0x51) = .error (.canonOperand 1) ∧
    decode (Command.ofWord 0x60) = .error (.noSuchPosition 0) ∧ decode (Command.ofWord 0x7B) = .error (.noSuchPosition 11) := by
  decide
/-- R69: the encoder's words. -/
theorem test_encode_words :
    (encode (.get .x)).cmd = 0x12 ∧ (encode (.set .y 5)).cmd = 0x23 ∧ (encode (.set .y 5)).wdata = 5 ∧
    (encode (.gets .b)).cmd = 0x31 ∧ (encode (.sets .s [0x39])).cmd = 0x46 ∧ (encode (.sets .s [0x39])).sdata = [0x39] ∧
    (encode .canon).cmd = 0x50 ∧ (encode (.masks 3)).cmd = 0x63 ∧ (encode (.display 10)).cmd = 0x7A := by decide
/-- Every row of the opcode table, its operand zero or the least legal one, through the table's entry points. -/
theorem test_decodeTableWord_rows :
    decodeTableWord 8 0x10 = some (.get .a) ∧ decodeTableWord 8 0x20 = some (.set .a 0) ∧
    decodeTableWord 8 0x30 = some (.gets .a) ∧ decodeTableWord 8 0x40 = some (.sets .a []) ∧
    decodeTableWord 8 0x50 = some .canon ∧ decodeTableWord 8 0x61 = some (.masks 1) ∧
    decodeTableWord 8 0x71 = some (.display 1) ∧ decodeTableWord 8 0x60 = none ∧ decodeTableWord 16 0x10 = none := by decide
theorem test_withFetchWord_runs_the_word :
    stateOf (step (State.reset.withFetchWord 8 0x11)) = stateOf (exec (.get .b) State.reset) := by decide

/-! GET and SET -/

/-- V61. -/
theorem test_get_b_after_reset :
    (responseOf (serve State.reset 0x11)).map Response.rdata = some 0x00000000000099 := by decide
/-- V60, the digits in distinct places (the word of V10). -/
theorem test_get_orders_digits :
    (responseOf (serve (regs 0x01234567890123 0 0) 0x10)).map Response.rdata = some 0x01234567890123 := by decide
/-- V65. -/
theorem test_set_x :
    regOf (serve State.reset 0x22 0x01234567890123) .x = some 0x01234567890123 := by decide
/-- V62, V63: a nibble above 9 at either end. -/
theorem test_set_refuses_nibbles :
    statusOf (serve State.reset 0x23 0x0000000000000A) = some .illegal ∧
    statusOf (serve State.reset 0x23 0xF0000000000000) = some .illegal ∧
    regOf (serve State.reset 0x23 0xF0000000000000) .y = some 0 := by decide

/-! GETS and SETS -/

/-- V11. -/
theorem test_gets_orders_characters :
    (responseOf (serve (regs 0x01234567890123 0 0) 0x30)).map Response.sout =
      some #v[0x30, 0x31, 0x32, 0x33, 0x34, 0x35, 0x36, 0x37, 0x38, 0x39, 0x30, 0x31, 0x32, 0x33] := by decide
/-- V19a. -/
theorem test_gets_b_after_reset :
    (responseOf (serve State.reset 0x31)).map Response.sout =
      some #v[0x30, 0x30, 0x30, 0x30, 0x30, 0x30, 0x30, 0x30, 0x30, 0x30, 0x30, 0x30, 0x39, 0x39] := by decide
/-- V10. -/
theorem test_sets_orders_digits :
    regOf (serve State.reset 0x40 0 (str [0, 1, 2, 3, 4, 5, 6, 7, 8, 9, 0, 1, 2, 3])) .a = some 0x01234567890123 := by
  decide
/-- V12, V13, V17 (the bytes next to the digit range), V78 (the register check comes first). -/
theorem test_sets_rejects :
    statusOf (serve State.reset 0x40 0 (List.replicate 13 0x30)) = some .formatError ∧
    statusOf (serve State.reset 0x40 0 (List.replicate 15 0x30)) = some .formatError ∧
    statusOf (serve State.reset 0x40 0 (List.replicate 13 0x30 ++ [0x2F])) = some .formatError ∧
    statusOf (serve State.reset 0x40 0 (List.replicate 13 0x30 ++ [0x3A])) = some .formatError ∧
    statusOf (serve State.reset 0x49 0 (List.replicate 4 0x30)) = some .illegal := by decide

/-! CANON -/

/-- V1 to V4, the source's worked cases, and V53 (a stop mark in the last place, m = 88). -/
theorem test_canon_worked_cases :
    regOf (serve (regs 0x01000000000002 0x00029999999999 0) 0x50) .x = some 0x01000000000002 ∧
    regOf (serve (regs 0x00100000000902 0x20099999999999 0) 0x50) .x = some 0x01000000000998 ∧
    regOf (serve (regs 0x01000000000012 0x02999999999000 0) 0x50) .x = some 0x01000000000012 ∧
    regOf (serve (regs 0x01000000000912 0x02999999999000 0) 0x50) .x = some 0x01000000000988 ∧
    regOf (serve (regs 0x09876543210988 0x00000000009999 0) 0x50) .x = some 0x09876543210912 := by decide
/-- V39 and V47: the two parameters, where their readings differ. -/
theorem test_canon_parameters :
    regOf (serve (regs 0x00012345678000 0x00099999999999 0) 0x50) .x = some 0x01200000000000 ∧
    regOf (serve { regs 0x00012345678000 0x00099999999999 0 with
      config := { defaultConfig with maskCursor := .src } } 0x50) .x = some 0x00000000000000 ∧
    regOf (serve (regs 0x01000000000991 0 0) 0x50) .x = some 0x01000000000909 ∧
    regOf (serve { regs 0x01000000000991 0 0 with
      config := { defaultConfig with negExpSign := .tensZero } } 0x50) .x = some 0x01000000000009 := by decide

/-! MASKS and DISPLAY -/

/-- V22. -/
theorem test_masks_every_digit :
    masksOf (serve (regs 0 0 0x91234567890998) 0x61) =
      some #v[0x40, 0x86, 0x5B, 0x4F, 0x66, 0x6D, 0x7D, 0x07, 0x7F, 0x6F, 0x3F, 0x40, 0x6F, 0x7F, 0x00] := by decide
/-- V24: the point on the last position. -/
theorem test_masks_point_at_10 :
    masksOf (serve (regs 0 0 0x00123456789000) 0x6A) =
      some #v[0x00, 0x3F, 0x06, 0x5B, 0x4F, 0x66, 0x6D, 0x7D, 0x07, 0x7F, 0xEF, 0x00, 0x3F, 0x3F, 0x00] := by decide
/-- V28. -/
theorem test_display_shows_the_x_it_writes :
    masksOf (serve (regs 0x01000000000912 0x02999999999000 0) 0x71) =
      some #v[0x00, 0x86, 0x3F, 0x3F, 0x3F, 0x3F, 0x3F, 0x3F, 0x3F, 0x3F, 0x3F, 0x40, 0x7F, 0x7F, 0x00] ∧
    regOf (serve (regs 0x01000000000912 0x02999999999000 0) 0x71) .x = some 0x01000000000988 := by decide
/-- V75, V76: the check of dp comes before the check of the digits. -/
theorem test_display_priority :
    statusOf (serve (regs 0 0xF0000000000000 0) 0x70) = some .illegal ∧
    statusOf (serve (regs 0 0xF0000000000000 0) 0x71) = some .invariantViolation := by decide

/-! The fault flag and reset -/

/-- V77: FAULTED comes before ILLEGAL. -/
theorem test_faulted_before_illegal : statusOf (serve { State.reset with fault := true } 0x17) = some .faulted := by decide
/-- V74: the reset signal clears the fault and restores A. -/
theorem test_reset_signal :
    stateOf (step { regs 0x0000000000000A 0 0 with fault := true, inputs := [.resetSignal] }) = some State.reset := by decide

/-! Witnesses: for each statement with hypotheses, concrete values that meet them, one for each clause. -/

/-- A register value, a stop mask and a state that meet the hypotheses of the CANON statements (V4). -/
def v4 : State := regs 0x01000000000912 0x02999999999000 0

/-- A state whose A has a digit above 9 in its lowest place, and one whose B has one in its highest. -/
def badA : State := regs 0x0000000000000A 0 0
def badB : State := regs 0 0xF0000000000000 0

/-- A faulted state. -/
def stopped : State := { State.reset with fault := true }

theorem witness_DecodeInvertsEncode :
    (Instr.get .s).WellFormed = true ∧ (Instr.sets .s []).WellFormed = true ∧ (Instr.masks 1).WellFormed = true ∧
    (Instr.masks 10).WellFormed = true ∧ (Instr.display 10).WellFormed = true ∧ Instr.canon.WellFormed = true := by decide

theorem witness_EncodeInvertsDecode :
    decode { cmd := 0x26, wdata := 5, sdata := [0x30] } = .ok (.set .s 5) ∧
    decode { cmd := 0x40, wdata := 5, sdata := [0x30] } = .ok (.sets .a [0x30]) ∧
    Command.WellFormed { cmd := 0x40, wdata := 5, sdata := [0x30] } := by decide

theorem witness_IllegalCommandsAnswerIllegal :
    (∀ w ∈ [0x00#8, 0x0F, 0x17, 0x1F, 0x27, 0x37, 0x47, 0x51, 0x5F, 0x60, 0x6B, 0x70, 0x7F, 0x80, 0xFF], IllegalWord w) ∧
    (∀ w ∈ [0x10#8, 0x16, 0x20, 0x36, 0x46, 0x50, 0x61, 0x6A, 0x71, 0x7A], ¬ IllegalWord w) ∧
    IllegalData { cmd := 0x20, wdata := 0x0000000000000A, sdata := [] } ∧
    IllegalData { cmd := 0x26, wdata := 0xF0000000000000, sdata := [] } ∧
    (State.reset.present (Command.ofWord 0x17)).inputs = .command (Command.ofWord 0x17) :: [] ∧
    (State.reset.present (Command.ofWord 0x17)).fault = false := by decide

theorem witness_PortsAreFixedByOpcode :
    (0x10#8).toNat / 16 ≠ 2 ∧ (0x10#8).toNat / 16 ≠ 4 ∧ (0x20#8).toNat / 16 = 2 ∧ (0x40#8).toNat / 16 = 4 ∧
    (State.reset.present { cmd := 0x10, wdata := 7, sdata := [1] }).inputs =
      [.command { cmd := 0x10, wdata := 7, sdata := [1] }] := by decide

theorem witness_StepRunsDecodedCommand :
    (State.reset.present (Command.ofWord 0x73)).inputs = .command (Command.ofWord 0x73) :: [] ∧
    decode (Command.ofWord 0x73) = .ok (.display 3) := by decide

theorem witness_StepWithoutInputIdles : State.reset.inputs = [] := by decide

theorem witness_CommandsWriteOnlyTheirRegister :
    regOf (serve State.reset 0x26 7) .s ≠ some (State.reset.reg .s).pack ∧
    regOf (serve State.reset 0x40 0 (str [9, 0, 0, 0, 0, 0, 0, 0, 0, 0, 0, 0, 0, 0])) .a ≠ some (State.reset.reg .a).pack ∧
    regOf (serve v4 0x50) .x ≠ some (v4.reg .x).pack ∧ regOf (serve v4 0x7A) .x ≠ some (v4.reg .x).pack := by decide

theorem witness_FaultedAnswersEveryCommand :
    stopped.fault = true ∧ (stopped.present (Command.ofWord 0x00)).inputs = [.command (Command.ofWord 0x00)] ∧
    stateOf (step { stopped with inputs := [.resetSignal] }) = some State.reset ∧ stateOf (step stopped) = some stopped := by decide

theorem witness_StatusPriority :
    (stopped.fault = true ∧ State.reset.fault = false) ∧ (IllegalWord 0x70 ∧ ¬ IllegalWord 0x20) ∧
    (IllegalData { cmd := 0x20, wdata := 0x0A, sdata := [] } ∧ ¬ IllegalData { cmd := 0x20, wdata := 0x09, sdata := [] }) ∧
    (¬ IllegalWord 0x40 ∧ ¬ DecimalString (List.replicate 13 0x30) ∧ DecimalString (List.replicate 14 0x39)) ∧
    ¬ IllegalWord 0x50 ∧ ¬ badA.InputDigitsOk ∧ ¬ badB.InputDigitsOk ∧ v4.InputDigitsOk :=
  ⟨by decide, by decide, by decide, by decide, by decide, by decide, by decide, by decide⟩

theorem witness_StatusCodes :
    (State.reset.present (Command.ofWord 0x17)).inputs = .command (Command.ofWord 0x17) :: [] ∧
    statusOf (serve stopped 0x17) = some .faulted := by decide

theorem witness_ErrorsArePrecise :
    statusOf (serve State.reset 0x00) = some .illegal ∧ statusOf (serve State.reset 0x40) = some .formatError ∧
    statusOf (serve badA 0x50) = some .invariantViolation ∧ statusOf (serve stopped 0x50) = some .faulted := by decide

theorem witness_CanonInvariantViolation :
    badA.fault = false ∧ (∃ i < 14, 9 < ((badA.reg .a).digit i).toNat ∨ 9 < ((badA.reg .b).digit i).toNat) ∧
    badB.fault = false ∧ (∃ i < 14, 9 < ((badB.reg .a).digit i).toNat ∨ 9 < ((badB.reg .b).digit i).toNat) ∧
    ∀ r ∈ [RegId.a, .b, .x, .y, .z, .t, .s], (v4.reg r).IsDecimal := by decide

theorem witness_DisplayInvariantViolation :
    badB.fault = false ∧ (1 ≤ 1 ∧ 1 ≤ 10) ∧ (1 ≤ 10 ∧ 10 ≤ 10) ∧
    (∃ i < 14, 9 < ((badB.reg .a).digit i).toNat ∨ 9 < ((badB.reg .b).digit i).toNat) := by decide

theorem witness_FaultFlagLife :
    badA.fault = false ∧ statusOf (serve badA 0x50) = some .invariantViolation ∧
    statusOf (serve badB 0x7A) = some .invariantViolation ∧ stopped.fault = true ∧
    stateOf (step { stopped with inputs := [.resetSignal] }) = some State.reset := by decide

theorem witness_ResetSignalRestoresBlock :
    ({ badA with fault := true, inputs := [.resetSignal, .command (Command.ofWord 0x10)] } : State).inputs =
      .resetSignal :: [.command (Command.ofWord 0x10)] := by decide

theorem witness_GetReturnsPackedRegister :
    State.reset.fault = false ∧ stopped.fault = true ∧ (0x10#8).toNat = 16 * 1 + RegId.a.code.toNat ∧
    (0x16#8).toNat = 16 * 1 + RegId.s.code.toNat ∧ (0x17#8).toNat / 16 = 1 ∧ 7 ≤ (0x17#8).toNat % 16 := by decide

theorem witness_SetWritesOrRefuses :
    State.reset.fault = false ∧ (∀ i < 14, (nibble 0x99999999999999 i).toNat ≤ 9) ∧
    (∃ i < 14, 9 < (nibble 0x0000000000000A i).toNat) ∧ (∃ i < 14, 9 < (nibble 0xA0000000000000 i).toNat) ∧
    stopped.fault = true ∧ (0x26#8).toNat = 16 * 2 + RegId.s.code.toNat ∧ (0x2F#8).toNat / 16 = 2 ∧
    7 ≤ (0x2F#8).toNat % 16 := by decide

theorem witness_GetReadsLastSet :
    State.reset.fault = false ∧ ∀ i < 14, (nibble 0x01234567890123 i).toNat ≤ 9 := by decide

theorem witness_SetsParsesOrRejects :
    State.reset.fault = false ∧ DecimalString (str [0, 1, 2, 3, 4, 5, 6, 7, 8, 9, 0, 1, 2, 3]) ∧ ¬ DecimalString [] ∧
    ¬ DecimalString (List.replicate 15 0x30) ∧ ¬ DecimalString (List.replicate 13 0x30 ++ [0x2F]) ∧
    ¬ DecimalString (List.replicate 13 0x30 ++ [0x3A]) ∧ stopped.fault = true ∧
    (0x46#8).toNat = 16 * 4 + RegId.s.code.toNat ∧ (0x47#8).toNat / 16 = 4 ∧ 7 ≤ (0x47#8).toNat % 16 := by decide

theorem witness_GetsFormatsRegister :
    State.reset.fault = false ∧ (∀ k : Fin 14, ((State.reset.reg .b).digit (13 - k)).toNat ≤ 9) ∧ stopped.fault = true ∧
    (0x36#8).toNat = 16 * 3 + RegId.s.code.toNat ∧ (0x37#8).toNat / 16 = 3 ∧ 7 ≤ (0x37#8).toNat % 16 := by decide

theorem witness_ParseAndFormatInvert :
    (Reg.unpack 0x90123456789090).IsDecimal ∧ parse (List.replicate 14 0x30) = some Reg.zero ∧
    DecimalString (List.replicate 14 0x39) := by decide

theorem witness_GetsReturnsTheStringSet :
    State.reset.fault = false ∧ DecimalString (str [9, 1, 2, 3, 4, 5, 6, 7, 8, 9, 0, 9, 2, 3]) := by decide

theorem witness_GetAndGetsAgree : State.reset.fault = false ∧ (State.reset.reg .b).IsDecimal := by decide

theorem witness_SetAndSetsAgree :
    DecimalString (str [0, 1, 2, 3, 4, 5, 6, 7, 8, 9, 0, 1, 2, 3]) ∧
    ∀ k < 14, (nibble 0x01234567890123 (13 - k)).toNat =
      ((str [0, 1, 2, 3, 4, 5, 6, 7, 8, 9, 0, 1, 2, 3]).getD k 0).toNat - 0x30 := by decide

theorem witness_ReadsHaveNoSideEffect :
    (∃ t, exec .canon v4 = .next t) ∧ ∃ dp, Instr.masks 3 = .masks dp := ⟨⟨_, execCanon_of_ok rfl (by decide)⟩, 3, rfl⟩

/-- The hypotheses of CanonWritesOnlyX, CanonMantissaCopy and CanonOutputRange. -/
theorem witness_CanonWritesOnlyX :
    v4.fault = false ∧ v4.InputDigitsOk ∧ stopped.fault = true ∧ (0x51#8).toNat / 16 = 5 ∧ (0x51#8).toNat % 16 ≠ 0 := by
  decide

theorem witness_CanonMantissaSign :
    (regs 0x91234567890000 0x99999999999999 0).fault = false ∧ (regs 0x91234567890000 0x99999999999999 0).InputDigitsOk ∧
    ∀ j < 13, 3 ≤ j → ((regs 0x91234567890000 0x99999999999999 0).reg .b).digit j = 9 := by decide

theorem witness_CanonMantissaCopy : v4.fault = false ∧ v4.InputDigitsOk := by decide

theorem witness_CanonPositiveExponent :
    (regs 0x01000000000012 0x02999999999000 0).fault = false ∧ (regs 0x01000000000012 0x02999999999000 0).InputDigitsOk ∧
    ((regs 0x01000000000012 0x02999999999000 0).reg .a).digit 2 = 0 := by decide

theorem witness_CanonNegativeExponentBorrowOut :
    v4.fault = false ∧ v4.InputDigitsOk ∧ (v4.reg .a).digit 2 ≠ 0 ∧ v4.config.negExpSign = .borrowOut := by decide

/-- A state with the given A, under the other reading of NEG_EXP_SIGN. -/
def tensZero (a : PackedWord) : State := { regs a 0 0 with config := { defaultConfig with negExpSign := .tensZero } }

/-- m = 90 and m = 91, on either side of where the readings part. -/
theorem witness_CanonNegativeExponentTensZero :
    ((tensZero 0x01000000000990).fault = false ∧ (tensZero 0x01000000000990).InputDigitsOk ∧
      ((tensZero 0x01000000000990).reg .a).digit 2 ≠ 0 ∧ (tensZero 0x01000000000990).m = 90) ∧
    ((tensZero 0x01000000000991).fault = false ∧ (tensZero 0x01000000000991).InputDigitsOk ∧
      ((tensZero 0x01000000000991).reg .a).digit 2 ≠ 0 ∧ (tensZero 0x01000000000991).m = 91) ∧
    (tensZero 0x01000000000991).config.negExpSign = .tensZero := by decide

theorem witness_CanonOutputRange :
    v4.fault = false ∧ v4.InputDigitsOk ∧ v4.config.negExpSign = .borrowOut := by decide

/-- Two states that differ in B[13], B[2..0], X and the segment table. -/
theorem witness_CanonReadsOnlyAAndMantissaOfB :
    let s' : State := { regs 0x01000000000912 0x92999999999123 5 with
      config := { defaultConfig with seg := { defaultSegTable with minus := 1 } } }
    v4.fault = false ∧ s'.fault = false ∧ v4.InputDigitsOk ∧ s'.InputDigitsOk ∧ v4.reg .a = s'.reg .a ∧
    (∀ i < 13, 3 ≤ i → (v4.reg .b).digit i = (s'.reg .b).digit i) ∧ v4.config.maskCursor = s'.config.maskCursor ∧
    v4.config.negExpSign = s'.config.negExpSign := by decide

theorem witness_CanonOverwritesTestValue :
    v4.fault = false ∧ v4.InputDigitsOk ∧ ∀ i < 14, (nibble 0x01234567890123 i).toNat ≤ 9 := by decide

theorem witness_MasksShowX :
    v4.fault = false ∧ (1 ≤ 1 ∧ 1 ≤ 10) ∧ (1 ≤ 10 ∧ 10 ≤ 10) ∧ (∀ i < 14, ((v4.reg .x).digit i).toNat ≤ 9) ∧ 0 < 1 ∧
    10 < 11 ∧ stopped.fault = true ∧ (0x61#8).toNat = 16 * 6 + 1 ∧ (0x6A#8).toNat = 16 * 6 + 10 ∧
    (0x60#8).toNat / 16 = 6 ∧ (0x60#8).toNat % 16 = 0 ∧ 11 ≤ (0x6B#8).toNat % 16 := by decide

theorem witness_DisplayIsCanonThenMasks :
    v4.fault = false ∧ v4.InputDigitsOk ∧ badA.fault = false ∧ ¬ badA.InputDigitsOk ∧ badB.fault = false ∧
    ¬ badB.InputDigitsOk ∧ stopped.fault = true ∧ (0x71#8).toNat = 16 * 7 + 1 ∧ (0x7A#8).toNat = 16 * 7 + 10 ∧
    (0x7B#8).toNat / 16 = 7 ∧ 11 ≤ (0x7B#8).toNat % 16 := by decide

theorem witness_ExactlyOnePoint :
    v4.fault = false ∧ v4.config.seg.WellFormed ∧ (∀ r ∈ [RegId.a, .b, .x, .y, .z, .t, .s], (v4.reg r).IsDecimal) ∧
    (1 ≤ 1 ∧ 1 ≤ 10) ∧ (1 ≤ 10 ∧ 10 ≤ 10) := by decide

theorem witness_DisplayStaysStale :
    RegId.a ≠ .x ∧ (∃ w, Instr.set .a 7 = .set .a w) ∧ ∃ t, exec (.set .a 7) State.reset = .next t :=
  ⟨by decide, ⟨7, rfl⟩, ⟨_, execSet_of_decimal rfl .a (by decide)⟩⟩

/-- The invariant, at a state that a SET of A has left for a CANON to run on (V4, with the response on the ports). -/
theorem witness_StepKeepsInvariant :
    ({ v4 with inputs := [.command (Command.ofWord 0x50)], response := some (Response.bare .ok) } : State).Inv ∧
    statusOf (serve v4 0x50) = some .ok :=
  ⟨⟨fun r => by cases r <;> decide, rfl, by decide, by simp [Command.ofWord], by
    rintro p ⟨⟩
    exact ⟨by decide, by decide, .inl rfl⟩⟩, by decide⟩

theorem witness_NoInputSequenceFaults :
    defaultConfig.seg.WellFormed ∧ ∀ c, HostInput.command c ∈ [.command (Command.ofWord 0x50), HostInput.resetSignal] →
      c.WellFormed :=
  ⟨by decide, by simp [Command.ofWord]⟩

end Sys2Proof.Tests
end

section
/-! The step (00_scope.md). -/

namespace Sys2Proof.Machine

/-- Settles O7: presenting a command is taking it and running what its ports decode to (`step_command`), and here they
decode to an instruction. -/
theorem stepRunsDecodedCommand : Obligations.StepRunsDecodedCommand := by
  intro s c rest i hinputs hdecode
  rw [step_command hinputs, hdecode]

end Sys2Proof.Machine
end

section
/-! The state and its invariant (10_state.md). -/

namespace Sys2Proof.Machine

/-! What a step can do to the flag, the parameters and the host's inputs -/

/-- R28: a command sets STAT.FAULT only by CANON's invariant violation, which DISPLAY can raise too (R158). -/
theorem CommandOutcome.fault_eq_or_violation {s t : State} {i : Instr} {p : Response} (h : CommandOutcome s i p t) :
    t.fault = s.fault ∨
      t.fault = true ∧ p.status = .invariantViolation ∧ (i = .canon ∨ ∃ dp, i = .display dp) := by
  cases h with
  | canonViolation _ => exact .inr ⟨rfl, rfl, .inl rfl⟩
  | displayViolation dp _ _ => exact .inr ⟨rfl, rfl, .inr ⟨dp, rfl⟩⟩
  | _ => exact .inl rfl

theorem CommandOutcome.inputs_config_eq {s t : State} {i : Instr} {p : Response} (h : CommandOutcome s i p t) :
    t.inputs = s.inputs ∧ t.config = s.config := by
  cases h <;> exact ⟨rfl, rfl⟩

/-- R204, R205: an illegal command changes nothing but the response, whether STAT.FAULT is set or not. -/
theorem execIllegal_eq_answer (e : DecodeError) (s : State) :
    ∃ p, execIllegal e s = .next (s.answer p) := by
  cases hf : s.fault with
  | true => exact ⟨_, unlessFaulted_of_fault hf _⟩
  | false => exact ⟨_, execIllegal_of_clear hf e⟩

/-- R51: every command of the table completes, whether STAT.FAULT is set or not. -/
theorem exec_completes (i : Instr) (s : State) :
    ∃ t, exec i s = .next t ∧ t.inputs = s.inputs ∧ t.config = s.config := by
  cases hf : s.fault with
  | true => exact ⟨_, exec_of_fault hf i, rfl, rfl⟩
  | false =>
    obtain ⟨p, t, hout, hexec⟩ := exec_outcome hf i
    exact ⟨t.answer p, hexec, hout.inputs_config_eq⟩

/-- R51, R256: every step completes; it takes the first of the host's inputs and keeps the parameters (R30). -/
theorem step_completes (s : State) :
    ∃ t, step s = .next t ∧ t.inputs = s.inputs.tail ∧ t.config = s.config := by
  obtain ⟨hin, hstep⟩ | ⟨rest, hin, hstep⟩ | ⟨c, rest, i, hin, -, hstep⟩ | ⟨c, rest, e, hin, -, hstep⟩ :=
    step_cases s <;> rw [hstep, hin]
  · exact ⟨s, rfl, hin, rfl⟩
  · exact ⟨_, rfl, rfl, rfl⟩
  · exact exec_completes i _
  · obtain ⟨p, hp⟩ := execIllegal_eq_answer e { s with inputs := rest }
    exact ⟨_, hp, rfl, rfl⟩

/-! Sound responses (R107, R170) -/

theorem Response.Sound.bare {e : Status} (hv : e ≠ .invariantViolation) (hf : e ≠ .faulted) :
    (Response.bare e).Sound :=
  ⟨⟨hv, hf⟩, fun i _ => by simp [nibble], .inl rfl⟩

theorem Response.sound_bare_ok : (Response.bare .ok).Sound := .bare (by decide) (by decide)
theorem Response.sound_bare_illegal : (Response.bare .illegal).Sound := .bare (by decide) (by decide)
theorem Response.sound_bare_formatError : (Response.bare .formatError).Sound := .bare (by decide) (by decide)

/-- R170: a decimal register travels on rdata as nibbles 0 to 9. -/
theorem Response.Sound.with_pack {p : Response} (hp : p.Sound) {r : Reg} (h : r.IsDecimal) :
    { p with rdata := r.pack }.Sound :=
  ⟨hp.status, fun i hi => by rw [nibble, Reg.extract_pack r hi]; exact h i hi, hp.sout⟩

/-- R102: a decimal register is formatted as ASCII digits. -/
theorem asciiDigit_format {r : Reg} (h : r.IsDecimal) (k : Fin 14) : asciiDigit (format r)[k] := by
  have hd := h (13 - k) (by omega)
  have hb := formatByte_toNat hd
  rw [Fin.getElem_fin, format_getElem r k k.isLt]
  exact ⟨by omega, by omega⟩

theorem Response.Sound.with_format {p : Response} (hp : p.Sound) {r : Reg} (h : r.IsDecimal) :
    { p with sout := format r }.Sound :=
  ⟨hp.status, hp.rdata, .inr (asciiDigit_format h)⟩

theorem Response.Sound.with_masks {p : Response} (hp : p.Sound) (m : Vector Mask 15) : { p with masks := m }.Sound :=
  ⟨hp.status, hp.rdata, hp.sout⟩

/-! Every state operation keeps the invariant -/

theorem State.Inv.answer {s : State} (h : s.Inv) {p : Response} (hp : p.Sound) : (s.answer p).Inv where
  digits := h.digits
  noFault := h.noFault
  seg := h.seg
  presentable := h.presentable
  response := by rintro q ⟨⟩; exact hp

theorem State.Inv.setReg {s : State} (h : s.Inv) (r : RegId) {v : Reg} (hv : v.IsDecimal) : (s.setReg r v).Inv where
  digits q := by
    rw [State.reg_setReg]
    split
    · exact hv
    · exact h.digits q
  noFault := h.noFault
  seg := h.seg
  presentable := h.presentable
  response := h.response

/-- R131: the canonicalizer writes digits 0 to 9 into X. -/
theorem State.Inv.afterCanon {s : State} (h : s.Inv) : (afterCanon s).Inv :=
  h.setReg .x (canonicalize_isDecimal _ _ (h.digits .a))

/-- R25: the check of CANON and DISPLAY never fires (R122). -/
theorem State.Inv.inputDigitsOk {s : State} (h : s.Inv) : s.InputDigitsOk := ⟨h.digits .a, h.digits .b⟩

theorem State.Inv.dropInput {s : State} (h : s.Inv) {i : HostInput} {rest : List HostInput}
    (hin : s.inputs = i :: rest) : State.Inv { s with inputs := rest } where
  digits := h.digits
  noFault := h.noFault
  seg := h.seg
  presentable c hc := h.presentable c (by rw [hin]; exact List.mem_cons_of_mem i hc)
  response := h.response

/-- R240: the block right after reset, with any legal parameters and any presentable inputs. -/
theorem inv_reset {cfg : Config} (hseg : cfg.seg.WellFormed) {ins : List HostInput}
    (hins : ∀ c, HostInput.command c ∈ ins → c.WellFormed) :
    State.Inv { State.reset with config := cfg, inputs := ins } where
  digits := isDecimal_reset
  noFault := rfl
  seg := hseg
  presentable := hins
  response := by rintro p ⟨⟩

/-- From a state with the invariant a command never ends in INVARIANT_VIOLATION, and what it writes and answers is
decimal. -/
theorem CommandOutcome.keeps_inv {s t : State} {i : Instr} {p : Response} (h : CommandOutcome s i p t) (hs : s.Inv) :
    t.Inv ∧ p.Sound := by
  cases h with
  | get r => exact ⟨hs, Response.sound_bare_ok.with_pack (hs.digits r)⟩
  | set r w hw => exact ⟨hs.setReg r hw, Response.sound_bare_ok⟩
  | gets r => exact ⟨hs, Response.sound_bare_ok.with_format (hs.digits r)⟩
  | sets r str v hv => exact ⟨hs.setReg r (parse_isDecimal hv), Response.sound_bare_ok⟩
  | canon _ => exact ⟨hs.afterCanon, Response.sound_bare_ok⟩
  | masks dp _ => exact ⟨hs, Response.sound_bare_ok.with_masks _⟩
  | display dp _ _ => exact ⟨hs.afterCanon, Response.sound_bare_ok.with_masks _⟩
  | setIllegal r w _ => exact ⟨hs, Response.sound_bare_illegal⟩
  | masksIllegal dp _ => exact ⟨hs, Response.sound_bare_illegal⟩
  | displayIllegal dp _ => exact ⟨hs, Response.sound_bare_illegal⟩
  | formatError r str _ => exact ⟨hs, Response.sound_bare_formatError⟩
  | canonViolation hbad => exact absurd hs.inputDigitsOk hbad
  | displayViolation dp _ hbad => exact absurd hs.inputDigitsOk hbad

theorem exec_keeps_inv {i : Instr} {s t : State} (hs : s.Inv) (h : exec i s = .next t) : t.Inv := by
  obtain ⟨p, u, hout, hexec⟩ := exec_outcome hs.noFault i
  cases hexec.symm.trans h
  obtain ⟨hu, hp⟩ := hout.keeps_inv hs
  exact hu.answer hp

theorem execIllegal_keeps_inv {e : DecodeError} {s t : State} (hs : s.Inv) (h : execIllegal e s = .next t) : t.Inv := by
  cases (execIllegal_of_clear hs.noFault e).symm.trans h
  exact hs.answer Response.sound_bare_illegal

/-- Settles O45: an idle step changes nothing, the reset signal leaves the reset state (`inv_reset`), and a command,
legal or not, is taken from the inputs and then keeps the invariant (`exec_keeps_inv`, `execIllegal_keeps_inv`). -/
theorem stepKeepsInvariant : Obligations.StepKeepsInvariant := by
  intro s t hs h
  obtain ⟨-, hstep⟩ | ⟨rest, hin, hstep⟩ | ⟨c, rest, i, hin, -, hstep⟩ | ⟨c, rest, e, hin, -, hstep⟩ :=
    step_cases s <;> rw [hstep] at h
  · cases h
    exact hs
  · cases h
    exact inv_reset hs.seg (hs.dropInput hin).presentable
  · exact exec_keeps_inv (hs.dropInput hin) h
  · exact execIllegal_keeps_inv (hs.dropInput hin) h

/-! The life of STAT.FAULT (R28) -/

theorem exec_fault_eq_or_violation {i : Instr} {s t : State} (h : exec i s = .next t) :
    t.fault = s.fault ∨ t.fault = true ∧
      ∃ p, t.response = some p ∧ p.status = .invariantViolation ∧ (i = .canon ∨ ∃ dp, i = .display dp) := by
  cases hf : s.fault with
  | true =>
    cases (exec_of_fault hf i).symm.trans h
    exact .inl hf
  | false =>
    obtain ⟨p, u, hout, hexec⟩ := exec_outcome hf i
    cases hexec.symm.trans h
    rw [← hf]
    exact hout.fault_eq_or_violation.imp_right fun ⟨hset, hviol⟩ => ⟨hset, p, rfl, hviol⟩

/-- Everything a step can do to STAT.FAULT: keep it, clear it by the reset signal, or set it by CANON's invariant
violation. -/
theorem step_fault_cases {s t : State} (h : step s = .next t) :
    t.fault = s.fault ∨
    (t.fault = false ∧ ∃ rest, s.inputs = .resetSignal :: rest) ∨
    (t.fault = true ∧ ∃ c rest p, s.inputs = .command c :: rest ∧ t.response = some p ∧
      p.status = .invariantViolation ∧ (decode c = .ok .canon ∨ ∃ dp, decode c = .ok (.display dp))) := by
  obtain ⟨-, hstep⟩ | ⟨rest, hin, hstep⟩ | ⟨c, rest, i, hin, hdec, hstep⟩ | ⟨c, rest, e, hin, -, hstep⟩ :=
    step_cases s <;> rw [hstep] at h
  · cases h
    exact .inl rfl
  · cases h
    exact .inr (.inl ⟨rfl, rest, hin⟩)
  · refine (exec_fault_eq_or_violation h).imp_right fun ⟨hset, p, hp, hviol, hi⟩ =>
      .inr ⟨hset, c, rest, p, hin, hp, hviol, ?_⟩
    simpa only [hdec, Except.ok.injEq] using hi
  · obtain ⟨p, hp⟩ := execIllegal_eq_answer e { s with inputs := rest }
    cases hp.symm.trans h
    exact .inl rfl

/-- Settles O17: of the three things a step can do to the flag (`step_fault_cases`) only the invariant violation leaves
it set where it was clear, and only the reset signal leaves it clear where it was set. -/
theorem faultFlagLife : Obligations.FaultFlagLife := by
  intro s t h
  obtain hkeep | ⟨hclear, hreset⟩ | ⟨hset, hviol⟩ := step_fault_cases h
  · rw [hkeep]
    exact ⟨fun hs ht => by simp [hs] at ht, fun hs ht => by simp [hs] at ht⟩
  · exact ⟨fun _ ht => by simp [hclear] at ht, fun _ _ => hreset⟩
  · exact ⟨fun _ _ => hviol, fun _ ht => by simp [hset] at ht⟩

/-! Runs -/

/-- The run of any machine, one step unfolded. -/
theorem run_succ_of_step {M : Host.Core} {s t : M.State} (h : M.step s = .next t) (n : Nat) :
    M.run (n + 1) s = M.run n t := by
  simp only [Host.Core.run, h]

/-- A run of any length completes, keeps the invariant and takes one input a step. -/
theorem run_keeps_inv (n : Nat) {s : State} (hs : s.Inv) :
    ∃ t : State, Host.Core.run core n s = .next t ∧ t.Inv ∧ t.inputs = s.inputs.drop n := by
  induction n generalizing s with
  | zero => exact ⟨s, rfl, hs, rfl⟩
  | succ n ih =>
    obtain ⟨u, hstep, hinputs, -⟩ := step_completes s
    obtain ⟨t, hrun, ht, hdrop⟩ := ih (stepKeepsInvariant s u hs hstep)
    refine ⟨t, (run_succ_of_step hstep n).trans hrun, ht, ?_⟩
    rw [hdrop, hinputs, List.drop_tail]

/-- Settles O47: the invariant holds after reset (`inv_reset`), and every run keeps it (`run_keeps_inv`). -/
theorem noInputSequenceFaults : Obligations.NoInputSequenceFaults := by
  intro cfg ins n hseg hins
  obtain ⟨t, hrun, ht, hinputs⟩ := run_keeps_inv n (inv_reset hseg hins)
  exact ⟨t, hrun, ht.digits, ht.noFault, hinputs⟩

/-! The reset state -/

/-- R32, R34: every register but B resets to zeros. -/
theorem resetReg_of_ne_b {r : RegId} (h : r ≠ .b) : resetReg r = Reg.zero := by
  cases r with
  | b => exact absurd rfl h
  | _ => rfl

/-- Settles O18: every register but B is `Reg.zero` (`resetReg_of_ne_b`); the digits of B are read off its reset
value. -/
theorem resetRegisterValues : Obligations.ResetRegisterValues := by
  refine ⟨fun r hr i _ => ?_, by decide, by decide, by decide, rfl⟩
  rw [State.reset_reg, resetReg_of_ne_b hr, Reg.digit_zero]

/-- Settles O46: the reset state is `inv_reset` at the default parameters, whose segment table is legal (R152), with
nothing presented. -/
theorem resetHasInvariant : Obligations.ResetHasInvariant :=
  inv_reset (cfg := defaultConfig) (by decide) (ins := []) (by simp)

end Sys2Proof.Machine
end

section
/-! Atomicity, order and effects of commands (20_memory.md). -/

namespace Sys2Proof.Machine

/-! Which register a command writes (R50) -/

/-- R50: the registers a command may write: the one that SET or SETS names, or X for CANON and DISPLAY. -/
def writtenRegs : Instr → List RegId
  | .set r _ => [r]
  | .sets r _ => [r]
  | .canon => [.x]
  | .display _ => [.x]
  | .get _ => []
  | .gets _ => []
  | .masks _ => []

theorem CommandOutcome.reg_eq_of_not_written {s t : State} {i : Instr} {p : Response} (h : CommandOutcome s i p t)
    {q : RegId} (hq : q ∉ writtenRegs i) : t.reg q = s.reg q := by
  cases h with
  | set r w _ => exact State.reg_setReg_of_ne (List.ne_of_not_mem_cons hq) _ _
  | sets r str v _ => exact State.reg_setReg_of_ne (List.ne_of_not_mem_cons hq) _ _
  | canon _ => exact afterCanon_reg_of_ne (List.ne_of_not_mem_cons hq) s
  | display dp _ _ => exact afterCanon_reg_of_ne (List.ne_of_not_mem_cons hq) s
  | _ => rfl

/-- R50: a command leaves every register outside its list as it was, whether STAT.FAULT is set or not. -/
theorem exec_reg_eq_of_not_written {i : Instr} {s t : State} (h : exec i s = .next t) {q : RegId}
    (hq : q ∉ writtenRegs i) : t.reg q = s.reg q := by
  cases hf : s.fault with
  | true =>
    cases (exec_of_fault hf i).symm.trans h
    rfl
  | false =>
    obtain ⟨p, u, hout, hexec⟩ := exec_outcome hf i
    cases hexec.symm.trans h
    exact hout.reg_eq_of_not_written hq

/-- R61, R62: the command word of a command that may write a register: the opcode of SET or SETS and the register's
identifier, or the opcode of CANON or DISPLAY for X. -/
theorem decode_written_cases {c : Command} {i : Instr} (h : decode c = .ok i) {q : RegId} (hq : q ∈ writtenRegs i) :
    ((c.cmd.toNat / 16 = 2 ∨ c.cmd.toNat / 16 = 4) ∧ c.cmd.toNat % 16 = q.code.toNat) ∨
    ((c.cmd.toNat / 16 = 5 ∨ c.cmd.toNat / 16 = 7) ∧ q = .x) := by
  rw [← Command.op_toNat, ← Command.arg_toNat]
  obtain ⟨-, r, -, rfl⟩ | ⟨hop, r, hcode, rfl⟩ | ⟨-, r, -, rfl⟩ | ⟨hop, r, hcode, rfl⟩ | ⟨hop, -, rfl⟩ | ⟨-, -, rfl⟩ |
    ⟨hop, -, rfl⟩ := decode_cases h
  · cases hq
  · obtain rfl := List.mem_singleton.1 hq
    exact .inl ⟨.inl hop, by rw [hcode]⟩
  · cases hq
  · obtain rfl := List.mem_singleton.1 hq
    exact .inl ⟨.inr hop, by rw [hcode]⟩
  · exact .inr ⟨.inl hop, List.mem_singleton.1 hq⟩
  · cases hq
  · exact .inr ⟨.inr hop, List.mem_singleton.1 hq⟩

/-- Settles O10: an illegal command changes no register (`execIllegal_eq_answer`); a register that another command
changes is one it may write (`exec_reg_eq_of_not_written`), and its command word says which (`decode_written_cases`). -/
theorem commandsWriteOnlyTheirRegister : Obligations.CommandsWriteOnlyTheirRegister := by
  intro s c rest t hinputs hstep q hchanged
  rw [step_command hinputs] at hstep
  cases hdecode : decode c with
  | ok i =>
    rw [hdecode] at hstep
    exact decode_written_cases hdecode <| by_contra fun hq => hchanged (exec_reg_eq_of_not_written hstep hq)
  | error e =>
    rw [hdecode] at hstep
    obtain ⟨p, hp⟩ := execIllegal_eq_answer e { s with inputs := rest }
    cases hp.symm.trans hstep
    exact absurd rfl hchanged

/-! Completion (R51) -/

/-- Settles O9: `step_completes` for the step, `exec_completes` for the commands. -/
theorem everyStepCompletes : Obligations.EveryStepCompletes := ⟨step_completes, exec_completes⟩

/-! Read after write (R56) -/

/-- R43, R56: what GET shows of a register after a packed word is written. -/
theorem pack_reg_setReg_unpack (s : State) (r q : RegId) (w : PackedWord) :
    ((s.setReg r (Reg.unpack w)).reg q).pack = if q = r then w else (s.reg q).pack := by
  rw [State.reg_setReg]
  split
  · exact Reg.pack_unpack w
  · rfl

/-- Settles O23: the SET writes the word (`execSet_of_decimal`), both GETs answer what the register holds
(`execGet_of_clear`), and `pack_reg_setReg_unpack` compares the two. -/
theorem getReadsLastSet : Obligations.GetReadsLastSet := by
  intro s r q w hf hw
  have hset := execSet_of_decimal hf r ((isDecimal_unpack_iff w).2 hw)
  have hget := execGet_of_clear (s := (s.setReg r (Reg.unpack w)).answer (Response.bare .ok)) hf q
  exact ⟨_, _, _, _, _, hset, hget, execGet_of_clear hf q, rfl, rfl, rfl, pack_reg_setReg_unpack s r q w⟩

/-! Reading and repeating (R49) -/

/-- R206: no command reads the response of an earlier one; each writes its own over it. -/
theorem exec_ignores_response (i : Instr) (s : State) (earlier : Option Response) :
    exec i { s with response := earlier } = exec i s := by
  cases i <;> rfl

/-- R49: a command that writes no register changes nothing but the response. -/
theorem CommandOutcome.eq_of_writes_none {s t : State} {i : Instr} {p : Response} (h : CommandOutcome s i p t)
    (hi : writtenRegs i = []) : t = s := by
  cases h with
  | get | gets | masks | masksIllegal => rfl
  | _ => cases hi

theorem exec_eq_answer_of_writes_none {i : Instr} (hi : writtenRegs i = []) (s : State) :
    ∃ p, exec i s = .next (s.answer p) := by
  cases hf : s.fault with
  | true => exact ⟨_, exec_of_fault hf i⟩
  | false =>
    obtain ⟨p, t, hout, hexec⟩ := exec_outcome hf i
    obtain rfl := hout.eq_of_writes_none hi
    exact ⟨p, hexec⟩

/-- R120: canonicalization reads A and B, which it does not write. -/
theorem afterCanon_afterCanon (s : State) : afterCanon (afterCanon s) = afterCanon s := by
  have hx : canonicalize (afterCanon s).config ((afterCanon s).reg .a) ((afterCanon s).reg .b) =
      canonicalize s.config (s.reg .a) (s.reg .b) := by
    rw [afterCanon_config, afterCanon_reg_of_ne (by decide), afterCanon_reg_of_ne (by decide)]
  rw [afterCanon, hx, afterCanon, State.setReg_setReg]

theorem afterCanon_inputDigitsOk {s : State} (h : s.InputDigitsOk) : (afterCanon s).InputDigitsOk := by
  rw [State.InputDigitsOk, afterCanon_reg_of_ne (by decide), afterCanon_reg_of_ne (by decide)]
  exact h

/-- R49: a second CANON, right after the first, leaves the register file as it stands: the first either wrote X
(`afterCanon_afterCanon`), or left STAT.FAULT set. -/
theorem execCanon_repeated {s t : State} (h : execCanon s = .next t) : ∃ u, execCanon t = .next u ∧ u.rf = t.rf := by
  cases hf : s.fault with
  | true =>
    cases (exec_of_fault hf .canon).symm.trans h
    exact ⟨_, exec_of_fault hf .canon, rfl⟩
  | false =>
    by_cases hd : s.InputDigitsOk
    · cases (execCanon_of_ok hf hd).symm.trans h
      have hagain := execCanon_of_ok (s := afterCanon s) hf (afterCanon_inputDigitsOk hd)
      rw [afterCanon_afterCanon] at hagain
      exact ⟨_, (exec_ignores_response .canon (afterCanon s) _).trans hagain, rfl⟩
    · cases (execCanon_of_bad hf hd).symm.trans h
      exact ⟨_, exec_of_fault rfl .canon, rfl⟩

/-- Settles O30: a command that writes no register only answers (`exec_eq_answer_of_writes_none`), and answers the same
again (`exec_ignores_response`); for CANON see `execCanon_repeated`. -/
theorem readsHaveNoSideEffect : Obligations.ReadsHaveNoSideEffect := by
  refine ⟨fun s i hread => ?_, fun s t h => execCanon_repeated h⟩
  have hnone : writtenRegs i = [] := by
    obtain ⟨r, rfl⟩ | ⟨r, rfl⟩ | ⟨dp, rfl⟩ := hread <;> rfl
  obtain ⟨p, hp⟩ := exec_eq_answer_of_writes_none hnone s
  exact ⟨s.answer p, hp, .answer s p, (exec_ignores_response i s (some p)).trans hp⟩

end Sys2Proof.Machine
end

section
/-! Encoding (30_encoding.md). -/

namespace Sys2Proof

/-! The decoder, opcode by opcode (R62) -/

theorem decode_of_op_get {c : Command} (h : c.op.toNat = 1) : decode c = decodeReg c.arg .get := by
  simp only [decode, h]

theorem decode_of_op_set {c : Command} (h : c.op.toNat = 2) : decode c = decodeReg c.arg (.set · c.wdata) := by
  simp only [decode, h]

theorem decode_of_op_gets {c : Command} (h : c.op.toNat = 3) : decode c = decodeReg c.arg .gets := by
  simp only [decode, h]

theorem decode_of_op_sets {c : Command} (h : c.op.toNat = 4) : decode c = decodeReg c.arg (.sets · c.sdata) := by
  simp only [decode, h]

theorem decode_of_op_canon {c : Command} (h : c.op.toNat = 5) (ha : c.arg = 0) : decode c = .ok .canon := by
  simp only [decode, h, ha, if_true]

theorem decode_of_op_masks {c : Command} (h : c.op.toNat = 6) : decode c = decodeDp c.arg .masks := by
  simp only [decode, h]

theorem decode_of_op_display {c : Command} (h : c.op.toNat = 7) : decode c = decodeDp c.arg .display := by
  simp only [decode, h]

/-- R63: the identifier of a register decodes to that register. -/
theorem decodeReg_code (r : RegId) (k : RegId → Instr) : decodeReg r.code k = .ok (k r) := by
  rw [decodeReg, RegId.ofCode_code]

/-- R64: arg has room for every legal decimal-point position. -/
theorem decodeDp_ofNat {dp : Nat} (h : dpLegal dp) (k : Nat → Instr) : decodeDp (BitVec.ofNat 4 dp) k = .ok (k dp) := by
  have hdp : (BitVec.ofNat 4 dp).toNat = dp := Nat.mod_eq_of_lt (by omega)
  rw [decodeDp, hdp, if_pos h]

/-! The command word the encoder writes (R61, R69) -/

/-- R62 to R64: what bits 3:0 of an instruction's command word hold. -/
def Instr.argField : Instr → BitVec 4
  | .get r => r.code
  | .set r _ => r.code
  | .gets r => r.code
  | .sets r _ => r.code
  | .canon => 0
  | .masks dp => BitVec.ofNat 4 dp
  | .display dp => BitVec.ofNat 4 dp

theorem encode_cmd (i : Instr) : (encode i).cmd = cmdWord i.opcode i.argField := by cases i <;> rfl

theorem op_encode (i : Instr) : (encode i).op = i.opcode := by
  rw [Command.op, encode_cmd, op_cmdWord]

theorem arg_encode (i : Instr) : (encode i).arg = i.argField := by
  rw [Command.arg, encode_cmd, arg_cmdWord]

/-- R60: only SETS puts bytes on sdata. -/
theorem encode_wellFormed {i : Instr} (h : i.WellFormed = true) : (encode i).WellFormed := by
  cases i with
  | sets r str => exact of_decide_eq_true h
  | _ => exact Nat.zero_le _

theorem decode_encode {i : Instr} (h : i.WellFormed = true) : decode (encode i) = .ok i := by
  have hop : (encode i).op.toNat = i.opcode.toNat := congrArg BitVec.toNat (op_encode i)
  have harg := arg_encode i
  cases i with
  | get r =>
    rw [decode_of_op_get hop, harg]
    exact decodeReg_code r _
  | set r w =>
    rw [decode_of_op_set hop, harg]
    exact decodeReg_code r _
  | gets r =>
    rw [decode_of_op_gets hop, harg]
    exact decodeReg_code r _
  | sets r str =>
    rw [decode_of_op_sets hop, harg]
    exact decodeReg_code r _
  | canon => exact decode_of_op_canon hop harg
  | masks dp =>
    rw [decode_of_op_masks hop, harg]
    exact decodeDp_ofNat (of_decide_eq_true h) _
  | display dp =>
    rw [decode_of_op_display hop, harg]
    exact decodeDp_ofNat (of_decide_eq_true h) _

/-- Settles O2: `encode_wellFormed` for the ports; the decoder finds the opcode and the operand field that the encoder
wrote (`op_encode`, `arg_encode`), and reads the operand back from them (`decode_encode`). -/
theorem decodeInvertsEncode : Obligations.DecodeInvertsEncode :=
  fun _ h => ⟨encode_wellFormed h, decode_encode h⟩

/-! What a decoded command says of its ports (R61 to R66) -/

/-- R61 to R64: the fields of the command word are those of the instruction decoded. -/
theorem decode_fields {c : Command} {i : Instr} (h : decode c = .ok i) : i.opcode = c.op ∧ i.argField = c.arg := by
  obtain ⟨hop, r, hcode, rfl⟩ | ⟨hop, r, hcode, rfl⟩ | ⟨hop, r, hcode, rfl⟩ | ⟨hop, r, hcode, rfl⟩ | ⟨hop, harg, rfl⟩ |
    ⟨hop, -, rfl⟩ | ⟨hop, -, rfl⟩ := decode_cases h <;> refine ⟨BitVec.eq_of_toNat_eq hop.symm, ?_⟩
  · exact hcode
  · exact hcode
  · exact hcode
  · exact hcode
  · exact harg.symm
  · exact (BitVec.ofNat_toNat 4 _).trans (BitVec.setWidth_eq _)
  · exact (BitVec.ofNat_toNat 4 _).trans (BitVec.setWidth_eq _)

theorem encode_cmd_of_decode {c : Command} {i : Instr} (h : decode c = .ok i) : (encode i).cmd = c.cmd := by
  obtain ⟨hop, harg⟩ := decode_fields h
  rw [encode_cmd, hop, harg, Command.cmdWord_op_arg]

/-- R65: the data of SET is the port wdata. -/
theorem encode_wdata_of_decode {c : Command} {i : Instr} (h : decode c = .ok i) (hop : c.op.toNat = 2) :
    (encode i).wdata = c.wdata := by
  rw [decode_of_op_set hop] at h
  obtain ⟨r, -, rfl⟩ := decodeReg_eq_ok h
  rfl

/-- R65: the string of SETS is the port sdata. -/
theorem encode_sdata_of_decode {c : Command} {i : Instr} (h : decode c = .ok i) (hop : c.op.toNat = 4) :
    (encode i).sdata = c.sdata := by
  rw [decode_of_op_sets hop] at h
  obtain ⟨r, -, rfl⟩ := decodeReg_eq_ok h
  rfl

/-- R60, R64: the checks of `Instr.WellFormed` are made by the decoder (dp) and by the port slen (the string). -/
theorem wellFormed_of_decode {c : Command} {i : Instr} (h : decode c = .ok i) (hc : c.WellFormed) :
    i.WellFormed = true := by
  obtain ⟨-, r, -, rfl⟩ | ⟨-, r, -, rfl⟩ | ⟨-, r, -, rfl⟩ | ⟨-, r, -, rfl⟩ | ⟨-, -, rfl⟩ | ⟨-, hdp, rfl⟩ | ⟨-, hdp, rfl⟩ :=
    decode_cases h
  · rfl
  · rfl
  · rfl
  · exact decide_eq_true hc
  · rfl
  · exact decide_eq_true hdp
  · exact decide_eq_true hdp

/-- Settles O3: the word is put together again from the fields that were read (`encode_cmd_of_decode`), and the data
port that was read is written again (`encode_wdata_of_decode`, `encode_sdata_of_decode`). -/
theorem encodeInvertsDecode : Obligations.EncodeInvertsDecode := by
  intro c i h
  rw [← Command.op_toNat]
  exact ⟨encode_cmd_of_decode h, encode_wdata_of_decode h, encode_sdata_of_decode h, wellFormed_of_decode h⟩

end Sys2Proof

namespace Sys2Proof.Machine

/-! Illegal commands (R67, R204) -/

/-- R67: a word outside the rule's list is the word of a command of the table. -/
theorem decode_of_not_illegalWord {c : Command} (h : ¬ IllegalWord c.cmd) :
    ∃ i, decode c = .ok i ∧ i.opcode.toNat = c.cmd.toNat / 16 := by
  cases hd : decode c with
  | ok i => exact ⟨i, rfl, by rw [(decode_fields hd).1, Command.op_toNat]⟩
  | error e => exact absurd ((illegalWord_iff c).2 ⟨e, hd⟩) h

/-- R67, R204: the step on an illegal command, with STAT.FAULT clear. -/
theorem step_illegal {s : State} {c : Command} {rest : List HostInput} (hin : s.inputs = .command c :: rest)
    (hf : s.fault = false) (h : IllegalWord c.cmd ∨ IllegalData c) :
    step s = .next (State.answer { s with inputs := rest } (Response.bare .illegal)) := by
  rw [step_command hin]
  by_cases hword : IllegalWord c.cmd
  · obtain ⟨e, he⟩ := (illegalWord_iff c).1 hword
    rw [he]
    exact execIllegal_of_clear (s := { s with inputs := rest }) hf e
  · obtain ⟨hop, hnibble⟩ := h.resolve_left hword
    obtain ⟨i, hi, -⟩ := decode_of_not_illegalWord hword
    have hset := hi
    rw [decode_of_op_set (c.op_toNat.trans hop)] at hset
    obtain ⟨r, -, rfl⟩ := decodeReg_eq_ok hset
    rw [hi]
    exact execSet_of_not_decimal (s := { s with inputs := rest }) hf r ((not_isDecimal_unpack_iff _).2 hnibble)

/-- Settles O5: `step_illegal` answers ILLEGAL and does nothing else; for the words outside the list see
`decode_of_not_illegalWord`. -/
theorem illegalCommandsAnswerIllegal : Obligations.IllegalCommandsAnswerIllegal :=
  ⟨fun _ h _ _ hin hf => ⟨_, step_illegal hin hf h, .bare _ _, .answer _ _⟩, fun _ h => decode_of_not_illegalWord h⟩

/-! The ports a command uses (R66) -/

/-- R66: the decoder reads wdata for SET only and sdata for SETS only. -/
theorem decode_congr {c d : Command} (hcmd : c.cmd = d.cmd) (hw : c.op.toNat = 2 → c.wdata = d.wdata)
    (hs : c.op.toNat = 4 → c.sdata = d.sdata) : decode c = decode d := by
  have hop : c.op = d.op := by rw [Command.op, Command.op, hcmd]
  have harg : c.arg = d.arg := by rw [Command.arg, Command.arg, hcmd]
  by_cases h2 : c.op.toNat = 2
  · rw [decode_of_op_set h2, decode_of_op_set (hop ▸ h2), harg, hw h2]
  by_cases h4 : c.op.toNat = 4
  · rw [decode_of_op_sets h4, decode_of_op_sets (hop ▸ h4), harg, hs h4]
  unfold decode
  rw [← hop, ← harg]
  split
  case h_2 => contradiction
  case h_4 => contradiction
  all_goals rfl

/-- R60, R66: a response fills no result port but the one that opcode op uses, and none when its status is not OK. -/
def Response.FillsOnlyPortOf (op : Nat) (p : Response) : Prop :=
  (¬ (p.status = .ok ∧ op = 1) → p.rdata = 0) ∧
  (¬ (p.status = .ok ∧ op = 3) → p.sout = Vector.replicate 14 0) ∧
  (¬ (p.status = .ok ∧ (op = 6 ∨ op = 7)) → p.masks = Vector.replicate 15 0)

theorem Response.FillsOnlyPortOf.bare (op : Nat) (e : Status) : (Response.bare e).FillsOnlyPortOf op :=
  ⟨fun _ => rfl, fun _ => rfl, fun _ => rfl⟩

theorem CommandOutcome.fillsOnlyPort {s t : State} {i : Instr} {p : Response} (h : CommandOutcome s i p t) :
    p.FillsOnlyPortOf i.opcode.toNat := by
  cases h with
  | get r => exact ⟨fun hn => absurd ⟨rfl, rfl⟩ hn, fun _ => rfl, fun _ => rfl⟩
  | gets r => exact ⟨fun _ => rfl, fun hn => absurd ⟨rfl, rfl⟩ hn, fun _ => rfl⟩
  | masks dp _ => exact ⟨fun _ => rfl, fun _ => rfl, fun hn => absurd ⟨rfl, .inl rfl⟩ hn⟩
  | display dp _ _ => exact ⟨fun _ => rfl, fun _ => rfl, fun hn => absurd ⟨rfl, .inr rfl⟩ hn⟩
  | _ => exact .bare _ _

theorem exec_fillsOnlyPort (i : Instr) (s : State) :
    ∃ t p, exec i s = .next t ∧ t.response = some p ∧ p.FillsOnlyPortOf i.opcode.toNat := by
  cases hf : s.fault with
  | true => exact ⟨_, _, exec_of_fault hf i, rfl, .bare _ _⟩
  | false =>
    obtain ⟨p, t, hout, hexec⟩ := exec_outcome hf i
    exact ⟨_, p, hexec, rfl, hout.fillsOnlyPort⟩

theorem execIllegal_fillsOnlyPort (e : DecodeError) (s : State) (op : Nat) :
    ∃ t p, execIllegal e s = .next t ∧ t.response = some p ∧ p.FillsOnlyPortOf op := by
  cases hf : s.fault with
  | true => exact ⟨_, _, unlessFaulted_of_fault hf _, rfl, .bare _ _⟩
  | false => exact ⟨_, _, execIllegal_of_clear hf e, rfl, .bare _ _⟩

/-- Settles O6: what the decoder reads decides the step (`decode_congr`), and a command, legal or not, fills no result
port but its own (`exec_fillsOnlyPort`, `execIllegal_fillsOnlyPort`). -/
theorem portsAreFixedByOpcode : Obligations.PortsAreFixedByOpcode := by
  refine ⟨fun s c d rest hcmd hw hs => ?_, fun s c rest hin => ?_⟩
  · rw [← Command.op_toNat] at hw hs
    rw [step_command rfl, step_command rfl, decode_congr hcmd hw hs]
  · rw [step_command hin, ← Command.op_toNat]
    cases hd : decode c with
    | ok i =>
      rw [← (decode_fields hd).1]
      exact exec_fillsOnlyPort i _
    | error e => exact execIllegal_fillsOnlyPort e _ _

/-! Words of the opcode map (R62, R68) -/

/-- Settles O1: each word runs through the decoder. -/
theorem sampleWordsDecode : Obligations.SampleWordsDecode := by
  unfold Obligations.SampleWordsDecode
  decide

/-- Settles O4: the count is made word by word, each of the 256 words run through the decoder. -/
theorem fortyNineLegalWords : Obligations.FortyNineLegalWords := by
  unfold Obligations.FortyNineLegalWords
  decide

end Sys2Proof.Machine
end

section
/-! The register codec (40_register_codec.md). -/

namespace Sys2Proof.Machine

/-! Parse and Format (R101 to R103) -/

/-- R101: Parse accepts exactly the strings of 14 ASCII digits. -/
theorem parse_isSome_iff (str : List Byte) : (parse str).isSome = true ↔ DecimalString str := by
  rw [← not_iff_not, Option.not_isSome_iff_eq_none, parse_eq_none_iff]

/-- R101: the digits of a parsed register, the mantissa sign read from the first byte. -/
theorem parse_digit_toNat {str : List Byte} {r : Reg} (h : parse str = some r) {k : Nat} (hk : k < 14) :
    (r.digit (13 - k)).toNat = (str.getD k 0).toNat - 0x30 := by
  obtain ⟨hlen, hascii, hdigit⟩ := parse_eq_some h
  rw [hdigit _ (by omega), show 13 - (13 - k) = k by omega]
  exact digit_toNat_of_ascii (asciiDigit_getD hascii (by omega))

theorem format_toList_getD (r : Reg) {k : Nat} (hk : k < 14) : (format r).toList.getD k 0 = formatByte r k := by
  rw [List.getD_eq_getElem _ _ (by simpa using hk), Vector.getElem_toList, format_getElem r k hk]

/-- R103: formatting a parsed string gives the string back, byte by byte. -/
theorem format_of_parse {str : List Byte} {r : Reg} (h : parse str = some r) : (format r).toList = str := by
  obtain ⟨hlen, hascii, -⟩ := parse_eq_some h
  refine List.ext_getElem (by simp [hlen]) fun k _ hk => BitVec.eq_of_toNat_eq ?_
  have hk14 : k < 14 := by omega
  have hlow := (hascii _ (List.getElem_mem hk)).1
  rw [Vector.getElem_toList, format_getElem r k hk14, formatByte_toNat (parse_isDecimal h _ (by omega)),
    parse_digit_toNat h hk14, List.getD_eq_getElem _ _ hk]
  omega

/-- R102: the string of a decimal register is one that Parse accepts. -/
theorem decimalString_format {r : Reg} (h : r.IsDecimal) : DecimalString (format r).toList := by
  refine ⟨by simp, fun k hk => ?_⟩
  rw [format_toList_getD r hk, ← format_getElem r k hk]
  exact asciiDigit_format h ⟨k, hk⟩

/-- R103: parsing a formatted register gives the register back, digit by digit. -/
theorem parse_format {r : Reg} (h : r.IsDecimal) : parse (format r).toList = some r := by
  obtain ⟨v, hv⟩ := Option.isSome_iff_exists.1 ((parse_isSome_iff _).2 (decimalString_format h))
  have hvr : v = r := Reg.ext_digit fun i hi => BitVec.eq_of_toNat_eq <| by
    have hdigit := parse_digit_toNat hv (k := 13 - i) (by omega)
    rw [format_toList_getD r (by omega), formatByte_toNat (h _ (by omega)), show 13 - (13 - i) = i by omega] at hdigit
    omega
  rw [hv, hvr]

/-- Settles O26: `parse_format` is the one round trip, `format_of_parse` the other, and `parse_isSome_iff` says what
Parse accepts. -/
theorem parseAndFormatInvert : Obligations.ParseAndFormatInvert :=
  ⟨fun _ h => parse_format h, fun _ _ h => ⟨parse_isDecimal h, format_of_parse h⟩, parse_isSome_iff⟩

/-! What commands with a register operand share (R61, R63, R205) -/

/-- R205: the answer and the frame of every command while STAT.FAULT is set. -/
theorem exec_answers_faulted {s : State} (hf : s.fault = true) (i : Instr) :
    ∃ t, exec i s = .next t ∧ Answers t .faulted ∧ Changes [] s t :=
  ⟨_, exec_of_fault hf i, .bare _ _, .answer _ _⟩

/-- R61, R63: the fields of the word 16 * op + id(r). -/
theorem fields_of_register_word {c : Command} {op : Nat} {r : RegId} (h : c.cmd.toNat = 16 * op + r.code.toNat) :
    c.op.toNat = op ∧ c.arg = r.code := by
  obtain ⟨hop, harg⟩ := Command.fields_of_toNat h r.code.isLt
  exact ⟨hop, BitVec.eq_of_toNat_eq harg⟩

/-- R67: a word of GET, SET, GETS or SETS whose arg names no register. -/
theorem answersIllegal_of_no_such_register {c : Command} (hop : 1 ≤ c.cmd.toNat / 16 ∧ c.cmd.toNat / 16 ≤ 4)
    (harg : 7 ≤ c.cmd.toNat % 16) : AnswersIllegal c :=
  illegalCommandsAnswerIllegal.1 c (.inl (.inr (.inr (.inl ⟨hop.1, hop.2, harg⟩))))

/-! SETS (R105) -/

/-- R105: SETS of a decimal string writes the register that Parse answers. -/
theorem execSets_of_decimalString {s : State} (hf : s.fault = false) (r : RegId) {str : List Byte}
    (h : DecimalString str) :
    ∃ v, parse str = some v ∧ exec (.sets r str) s = .next ((s.setReg r v).answer (Response.bare .ok)) := by
  obtain ⟨v, hv⟩ := Option.isSome_iff_exists.1 ((parse_isSome_iff str).2 h)
  exact ⟨v, hv, execSets_of_some hf r hv⟩

/-- R61, R63: the word 0x40 + id(r), whatever the string. -/
theorem decode_sets_word {c : Command} {r : RegId} (h : c.cmd.toNat = 16 * 4 + r.code.toNat) :
    decode c = .ok (.sets r c.sdata) := by
  obtain ⟨hop, harg⟩ := fields_of_register_word h
  rw [decode_of_op_sets hop, harg, decodeReg_code]

/-- Settles O24: a decimal string is parsed and written (`execSets_of_decimalString`, `parse_digit_toNat`), any other
is refused by Parse (`parse_eq_none_iff`). -/
theorem setsParsesOrRejects : Obligations.SetsParsesOrRejects := by
  refine ⟨fun s r str hf hstr => ?_, fun s r str hf hstr => ?_, fun s r str hf => exec_answers_faulted hf _,
    fun c r h => decode_sets_word h, fun c hop => answersIllegal_of_no_such_register (by omega)⟩
  · obtain ⟨v, hv, hexec⟩ := execSets_of_decimalString hf r hstr
    refine ⟨_, hexec, .bare _ _, fun k hk => ?_, .setReg_answer _ _ _ _⟩
    rw [State.answer_reg, State.reg_setReg_self]
    exact parse_digit_toNat hv hk
  · exact ⟨_, execSets_of_none hf r ((parse_eq_none_iff str).2 hstr), .bare _ _, .answer _ _⟩

/-! GETS (R107) -/

/-- R61, R63: the word 0x30 + id(r). -/
theorem decode_gets_word {c : Command} {r : RegId} (h : c.cmd.toNat = 16 * 3 + r.code.toNat) :
    decode c = .ok (.gets r) := by
  obtain ⟨hop, harg⟩ := fields_of_register_word h
  rw [decode_of_op_gets hop, harg, decodeReg_code]

/-- R107: the strings of the registers after reset, "00000000000099" for B and all zeros for the others. -/
theorem format_reset (r : RegId) (k : Fin 14) :
    (format (State.reset.reg r))[k] = if r = .b ∧ 12 ≤ k.val then 0x39 else 0x30 := by
  rw [State.reset_reg]
  by_cases hr : r = .b
  · subst hr
    revert k
    decide
  · rw [resetReg_of_ne_b hr, if_neg fun h => hr h.1, Fin.getElem_fin, format_getElem _ _ k.isLt,
      formatByte_of_digit (by simp), Reg.digit_zero]
    rfl

/-- Settles O25: the answer of GETS is `execGets_of_clear`, each byte of it `formatByte_toNat`; after reset see
`format_reset`. -/
theorem getsFormatsRegister : Obligations.GetsFormatsRegister := by
  refine ⟨fun s r hf => ?_, fun s r hf => exec_answers_faulted hf _, fun c r h => decode_gets_word h,
    fun c hop => answersIllegal_of_no_such_register (by omega),
    fun r => ⟨_, _, execGets_of_clear (s := State.reset) rfl r, rfl, format_reset r⟩⟩
  refine ⟨_, _, execGets_of_clear hf r, rfl, rfl, fun k hk => ?_, rfl, rfl, .answer _ _⟩
  rw [Fin.getElem_fin, format_getElem _ _ k.isLt, formatByte_toNat hk]

/-! GETS after SETS (V5) -/

/-- Settles O27: the SETS writes the parsed string (`execSets_of_decimalString`), the GETS answers what it finds there
formatted (`execGets_of_clear`), and formatting undoes parsing (`format_of_parse`). -/
theorem getsReturnsTheStringSet : Obligations.GetsReturnsTheStringSet := by
  intro s r str hf hstr
  obtain ⟨v, hv, hsets⟩ := execSets_of_decimalString hf r hstr
  have hgets := execGets_of_clear (s := (s.setReg r v).answer (Response.bare .ok)) hf r
  rw [State.answer_reg, State.reg_setReg_self] at hgets
  exact ⟨_, _, _, hsets, hgets, rfl, rfl, format_of_parse hv⟩

end Sys2Proof.Machine
end

section
/-! The canonicalizer (41_canonicalizer.md). -/

namespace Sys2Proof.Machine

/-! The command (R121, R122, R130) -/

/-- R122: one digit above 9 in A or B is enough for the check to fire. -/
theorem not_inputDigitsOk_of_digit {s : State}
    (h : ∃ i < 14, 9 < ((s.reg .a).digit i).toNat ∨ 9 < ((s.reg .b).digit i).toNat) : ¬ s.InputDigitsOk := by
  rintro ⟨ha, hb⟩
  obtain ⟨i, hi, hbad | hbad⟩ := h
  · exact absurd (ha i hi) (by omega)
  · exact absurd (hb i hi) (by omega)

/-- Settles O15: a digit above 9 makes the check of R122 fail (`not_inputDigitsOk_of_digit`, `execCanon_of_bad`);
decimal registers pass it (`execCanon_of_ok`). -/
theorem canonInvariantViolation : Obligations.CanonInvariantViolation := by
  intro s hf
  refine ⟨fun hbad => ?_, fun hdec => ?_⟩
  · exact ⟨_, execCanon_of_bad hf (not_inputDigitsOk_of_digit hbad), .bare _ _, rfl, fun _ => rfl, rfl, rfl⟩
  · exact ⟨_, execCanon_of_ok hf ⟨hdec .a, hdec .b⟩, .bare _ _, hf⟩

/-- R130: what CANON leaves in X. The statements about X's digits are facts about canonicalize(A, B). -/
theorem exec_canon_x {s : State} (hf : s.fault = false) (hd : s.InputDigitsOk) :
    ∃ t, exec .canon s = .next t ∧ t.reg .x = canonicalize s.config (s.reg .a) (s.reg .b) :=
  ⟨_, execCanon_of_ok hf hd, afterCanon_x s⟩

/-- R61, R62: the word 0x50. -/
theorem decode_canon_word {c : Command} (h : c.cmd = 0x50) : decode c = .ok .canon := by
  obtain ⟨hop, harg⟩ := Command.fields_of_toNat (c := c) (op := 5) (arg := 0) (by rw [h]; rfl) (by decide)
  exact decode_of_op_canon hop (BitVec.eq_of_toNat_eq harg)

/-- Settles O31: CANON's steps write X alone (`execCanon_of_ok`, the frame `Changes.setReg_answer`); a faulted block
answers FAULTED; of the words of opcode 5 only 0x50 is legal (R67). -/
theorem canonWritesOnlyX : Obligations.CanonWritesOnlyX := by
  refine ⟨fun s hf hd => ?_, fun s hf => exec_answers_faulted hf _, fun c h => decode_canon_word h,
    fun c hop harg => ?_⟩
  · exact ⟨_, execCanon_of_ok hf hd, .bare _ _, afterCanon_x s, .setReg_answer _ _ _ _⟩
  · exact illegalCommandsAnswerIllegal.1 c (.inl (.inr (.inr (.inr (.inl ⟨hop, harg⟩)))))

/-! The mantissa (R123 to R126) -/

/-- R124, R125: s0 is the index of A's first nonzero mantissa digit, 3 if A[12..4] are all 0; and n is the number of
positions before the first stop mark, at most the s0 - 2 that A's mantissa fills. -/
structure MantissaCursors (m : MaskCursor) (a b : Reg) (s0 n : Nat) : Prop where
  mantissa : 3 ≤ s0 ∧ s0 ≤ 12
  skipped  : ∀ j, s0 < j → j ≤ 12 → a.digit j = 0
  nonzero  : a.digit s0 ≠ 0 ∨ s0 = 3
  count    : n ≤ s0 - 2
  copied   : ∀ j < n, maskDigit m b (s0 - j) (12 - j) ≠ 9
  stopped  : n = s0 - 2 ∨ maskDigit m b (s0 - n) (12 - n) = 9

/-- R123 to R126: every digit of canonicalize(A, B) above the exponent: the n digits copied, and C's first value
elsewhere. -/
theorem canonicalize_high_digits (p : Config) (a b : Reg) :
    ∃ s0 n, MantissaCursors p.maskCursor a b s0 n ∧ ∀ i < 14, 3 ≤ i → (canonicalize p a b).digit i =
      if 12 < i + n ∧ i ≤ 12 then a.digit (s0 - (12 - i)) else (initC a).digit i := by
  obtain ⟨h3, h12, hskip, hnonzero⟩ := skipLeadingZeros_spec a 12 (by decide)
  obtain ⟨n, hn, hmask, hstop, hdigit⟩ :=
    copyMantissa_spec p.maskCursor a b (skipLeadingZeros a 12) 12 (initC a) (by omega) h12
  refine ⟨_, n, ⟨⟨h3, h12⟩, hskip, hnonzero, hn, hmask, hstop⟩, fun i hi hi3 => ?_⟩
  rw [canonicalize, digit_writeExponent_high _ _ _ hi hi3, hdigit i hi]

/-- R123: the mantissa sign. -/
theorem canonicalize_sign (p : Config) (a b : Reg) :
    (canonicalize p a b).digit 13 = if a.digit 13 = 0 then 0 else 9 := by
  obtain ⟨s0, n, -, hdigit⟩ := canonicalize_high_digits p a b
  rw [hdigit 13 (by decide) (by decide), if_neg (by omega), digit_initC a (by decide), if_pos rfl]

/-- R124 to R126: position by position from the top, the n digits of A from s0 down, then zeros. -/
theorem canonicalize_mantissa (p : Config) (a b : Reg) :
    ∃ s0 n, MantissaCursors p.maskCursor a b s0 n ∧
      (∀ j < n, (canonicalize p a b).digit (12 - j) = a.digit (s0 - j)) ∧
      ∀ j < 10, n ≤ j → (canonicalize p a b).digit (12 - j) = 0 := by
  obtain ⟨s0, n, hcur, hdigit⟩ := canonicalize_high_digits p a b
  have hn : n ≤ 10 := by have := hcur.count; have := hcur.mantissa; omega
  refine ⟨s0, n, hcur, fun j hj => ?_, fun j hj hnj => ?_⟩
  · rw [hdigit _ (by omega) (by omega), if_pos (by omega), show 12 - (12 - j) = j by omega]
  · rw [hdigit _ (by omega) (by omega), if_neg (by omega), digit_initC a (by omega), if_neg (by omega)]

/-- R125: a stop mark at every mantissa position stops the copy before it begins, at either cursor. -/
theorem MantissaCursors.count_eq_zero {m : MaskCursor} {a b : Reg} {s0 n : Nat} (h : MantissaCursors m a b s0 n)
    (hb : ∀ j, 3 ≤ j → j ≤ 12 → b.digit j = 9) : n = 0 := by
  by_contra hn
  refine h.copied 0 (Nat.pos_of_ne_zero hn) ?_
  cases m with
  | dest => exact hb 12 (by decide) (by decide)
  | src => exact hb s0 h.mantissa.1 h.mantissa.2

/-- Settles O32: the sign is `canonicalize_sign`; under stop marks throughout, no position is copied
(`MantissaCursors.count_eq_zero`), so every mantissa digit is one of the zeros of `canonicalize_mantissa`. -/
theorem canonMantissaSign : Obligations.CanonMantissaSign := by
  intro s hf hd
  obtain ⟨t, hexec, hx⟩ := exec_canon_x hf hd
  refine ⟨t, hexec, ?_, fun hb j hj3 hj12 => ?_⟩ <;> rw [hx]
  · exact canonicalize_sign _ _ _
  · obtain ⟨s0, n, hcur, -, hzero⟩ := canonicalize_mantissa s.config (s.reg .a) (s.reg .b)
    have hn := hcur.count_eq_zero hb
    have := hzero (12 - j) (by omega) (by omega)
    rwa [show 12 - (12 - j) = j by omega] at this

/-- Settles O33: `canonicalize_mantissa`, with the mask digit read at the cursor that B_MASK_CURSOR names. -/
theorem canonMantissaCopy : Obligations.CanonMantissaCopy := by
  intro s hf hd
  obtain ⟨t, hexec, hx⟩ := exec_canon_x hf hd
  obtain ⟨s0, n, ⟨⟨h3, h12⟩, hskip, hnonzero, hn, hmask, hstop⟩, hcopy, hzero⟩ :=
    canonicalize_mantissa s.config (s.reg .a) (s.reg .b)
  rw [← hx] at hcopy hzero
  refine ⟨t, s0, n, hexec, h3, h12, hskip, hnonzero, hn, ?_, hcopy, hzero⟩
  cases hm : s.config.maskCursor <;> rw [hm] at hmask hstop <;> exact ⟨hmask, hstop⟩

/-! The exponent (R127 to R129) -/

/-- R127: the exponent field of canonicalize(A, B), positive. -/
theorem canonicalize_positive_exponent (p : Config) {a : Reg} (b : Reg) (ha : a.digit 2 = 0) :
    (canonicalize p a b).digit 2 = 0 ∧ (canonicalize p a b).digit 1 = a.digit 1 ∧
      (canonicalize p a b).digit 0 = a.digit 0 :=
  digit_writeExponent_positive _ _ ha

/-- R128, R129: the exponent field of canonicalize(A, B), negative. -/
theorem canonicalize_negative_exponent (p : Config) {a : Reg} (b : Reg) (ha : a.digit 2 ≠ 0) :
    (canonicalize p a b).digit 2 = negSign p.negExpSign (a.digit 1) (a.digit 0) ∧
      (canonicalize p a b).digit 1 = negTens (a.digit 1) (a.digit 0) ∧
      (canonicalize p a b).digit 0 = negOnes (a.digit 0) :=
  digit_writeExponent_negative _ _ ha

/-- R128: the borrow out of the tens digit, on numbers. -/
theorem borrowTens_eq (m1 m0 : Digit) : borrowTens m1 m0 = if m1.toNat + borrowOnes m0 ≠ 0 then 1 else 0 := rfl

/-- R128: the two lower digits are those of (100 - m) mod 100. -/
theorem negTens_negOnes_value {m1 m0 : Digit} (h1 : m1.toNat ≤ 9) (h0 : m0.toNat ≤ 9) :
    10 * (negTens m1 m0).toNat + (negOnes m0).toNat = (100 - (10 * m1.toNat + m0.toNat)) % 100 := by
  rw [negTens_toNat, negOnes_toNat, borrowOnes_eq]
  split <;> omega

/-- R128: the tens digit borrows unless m is 0. -/
theorem negSign_borrowOut_eq (m1 m0 : Digit) :
    negSign .borrowOut m1 m0 = if 10 * m1.toNat + m0.toNat = 0 then 0 else 9 := by
  refine BitVec.eq_of_toNat_eq ?_
  rw [negSign_borrowOut_toNat, borrowTens_eq, borrowOnes_eq]
  by_cases h : 10 * m1.toNat + m0.toNat = 0
  · simp [show m1.toNat = 0 by omega, show m0.toNat = 0 by omega]
  · rw [if_neg h, if_pos (by split <;> omega)]
    rfl

/-- R128: the three digits are those of (1000 - m) mod 1000. -/
theorem negExponent_borrowOut_value {m1 m0 : Digit} (h1 : m1.toNat ≤ 9) (h0 : m0.toNat ≤ 9) :
    100 * (negSign .borrowOut m1 m0).toNat + 10 * (negTens m1 m0).toNat + (negOnes m0).toNat =
      (1000 - (10 * m1.toNat + m0.toNat)) % 1000 := by
  have hlow := negTens_negOnes_value h1 h0
  rw [negSign_borrowOut_eq]
  split <;> simp only [BitVec.ofNat_eq_ofNat, BitVec.toNat_ofNat] <;> omega

/-- R129: the tens digit computes to 0 for m = 0 and for m = 91 to 99. -/
theorem negTens_eq_zero_iff {m1 m0 : Digit} (h1 : m1.toNat ≤ 9) (h0 : m0.toNat ≤ 9) :
    negTens m1 m0 = 0 ↔ 10 * m1.toNat + m0.toNat = 0 ∨ 91 ≤ 10 * m1.toNat + m0.toNat := by
  rw [← BitVec.toNat_inj, negTens_toNat, borrowOnes_eq, BitVec.ofNat_eq_ofNat, BitVec.toNat_ofNat]
  split <;> omega

/-- R129: the readings of NEG_EXP_SIGN part exactly where the tens digit computes to 0 and m is not 0. -/
theorem negSign_readings_differ_iff {m1 m0 : Digit} (h1 : m1.toNat ≤ 9) (h0 : m0.toNat ≤ 9) :
    negSign .tensZero m1 m0 ≠ negSign .borrowOut m1 m0 ↔ 91 ≤ 10 * m1.toNat + m0.toNat := by
  have htens := negTens_eq_zero_iff h1 h0
  rw [negSign_borrowOut_eq, negSign]
  by_cases hm : 10 * m1.toNat + m0.toNat = 0
  · rw [if_pos hm, if_pos (htens.2 (.inl hm))]
    exact iff_of_false (not_not_intro rfl) (by omega)
  · rw [if_neg hm]
    by_cases ht : negTens m1 m0 = 0
    · rw [if_pos ht]
      exact iff_of_true (by decide) ((htens.1 ht).resolve_left hm)
    · rw [if_neg ht]
      exact iff_of_false (not_not_intro rfl) fun h91 => ht (htens.2 (.inr h91))

/-- R129: NEG_EXP_SIGN decides the sign digit of a negative exponent and nothing else, so the two readings of it give
different registers exactly for m = 91 to 99. -/
theorem canonicalize_readings_differ_iff {p q : Config} {a : Reg} (b : Reg) (hcursor : p.maskCursor = q.maskCursor)
    (hp : p.negExpSign = .tensZero) (hq : q.negExpSign = .borrowOut) (ha : a.digit 2 ≠ 0)
    (h1 : (a.digit 1).toNat ≤ 9) (h0 : (a.digit 0).toNat ≤ 9) :
    canonicalize p a b ≠ canonicalize q a b ↔ 91 ≤ 10 * (a.digit 1).toNat + (a.digit 0).toNat := by
  rw [← negSign_readings_differ_iff h1 h0, ← hp, ← hq]
  refine not_congr ⟨fun h => ?_, fun h => ?_⟩
  · rw [← (canonicalize_negative_exponent p b ha).1, h, (canonicalize_negative_exponent q b ha).1]
  · simp only [canonicalize, writeExponent, if_neg ha, hcursor, h]

/-- Settles O34: `canonicalize_positive_exponent`. -/
theorem canonPositiveExponent : Obligations.CanonPositiveExponent := by
  intro s hf hd ha
  obtain ⟨t, hexec, hx⟩ := exec_canon_x hf hd
  refine ⟨t, hexec, ?_⟩
  rw [hx]
  exact canonicalize_positive_exponent _ _ ha

/-- Settles O35: each digit is the model's own formula of R128 (`canonicalize_negative_exponent`), on numbers; the value
they make up is `negExponent_borrowOut_value`, that of the two lower ones `negTens_negOnes_value`. -/
theorem canonNegativeExponentBorrowOut : Obligations.CanonNegativeExponentBorrowOut := by
  intro s hf hd ha hread
  obtain ⟨t, hexec, hx⟩ := exec_canon_x hf hd
  obtain ⟨h2, h1, h0⟩ := canonicalize_negative_exponent s.config (s.reg .b) ha
  have hm1 := hd.1 1 (by decide)
  have hm0 := hd.1 0 (by decide)
  refine ⟨t, hexec, ?_⟩
  rw [hx, h2, h1, h0, hread]
  refine ⟨⟨negOnes_toNat _, ?_, ?_⟩, negExponent_borrowOut_value hm1 hm0, negTens_negOnes_value hm1 hm0⟩
  · rw [negTens_toNat, borrowOnes_eq]
  · rw [negSign_borrowOut_toNat, borrowTens_eq, borrowOnes_eq]

/-- Settles O36: X[1..0] does not depend on NEG_EXP_SIGN (`canonicalize_negative_exponent`), so X differs where the
sign digits do, which is for m = 91 to 99 (`canonicalize_readings_differ_iff`). -/
theorem canonNegativeExponentTensZero : Obligations.CanonNegativeExponentTensZero := by
  intro s hf hd ha hread
  obtain ⟨t, hexec, hx⟩ := exec_canon_x hf hd
  obtain ⟨u, hexec', hu⟩ :=
    exec_canon_x (s := { s with config := { s.config with negExpSign := .borrowOut } }) hf hd
  obtain ⟨h2, h1, h0⟩ := canonicalize_negative_exponent s.config (s.reg .b) ha
  obtain ⟨-, h1', h0'⟩ :=
    canonicalize_negative_exponent { s.config with negExpSign := .borrowOut } (s.reg .b) ha
  have hm1 := hd.1 1 (by decide)
  have hm0 := hd.1 0 (by decide)
  refine ⟨t, u, hexec, hexec', ?_⟩
  rw [hx, hu]
  simp only [State.reg_mk, State.rf_get]
  rw [h1', h0', h2, h1, h0, hread]
  exact ⟨negTens_negOnes_value hm1 hm0, rfl, rfl, rfl, canonicalize_readings_differ_iff _ rfl hread rfl ha hm1 hm0⟩

/-! The whole of X (R131, R132) -/

/-- R131: the exponent's sign digit under BORROW_OUT. -/
theorem canonicalize_exponent_sign_eq_nine_iff {p : Config} {a : Reg} (b : Reg) (hread : p.negExpSign = .borrowOut) :
    (canonicalize p a b).digit 2 = 9 ↔ a.digit 2 ≠ 0 ∧ 10 * (a.digit 1).toNat + (a.digit 0).toNat ≠ 0 := by
  by_cases ha : a.digit 2 = 0
  · rw [(canonicalize_positive_exponent p b ha).1]
    exact iff_of_false (by decide) fun h => h.1 ha
  · rw [(canonicalize_negative_exponent p b ha).1, hread, negSign_borrowOut_eq, and_iff_right ha]
    split
    · exact iff_of_false (by decide) (not_not_intro ‹_›)
    · exact iff_of_true rfl ‹_›

theorem canonicalize_exponent_sign_zero_or_nine (p : Config) (a b : Reg) :
    (canonicalize p a b).digit 2 = 0 ∨ (canonicalize p a b).digit 2 = 9 := by
  by_cases ha : a.digit 2 = 0
  · exact .inl (canonicalize_positive_exponent p b ha).1
  · rw [(canonicalize_negative_exponent p b ha).1]
    exact negSign_zero_or_nine _ _ _

/-- Settles O37: `canonicalize_isDecimal` for every digit, `canonicalize_sign` for X[13], and for X[2]
`canonicalize_exponent_sign_zero_or_nine` and `canonicalize_exponent_sign_eq_nine_iff`. -/
theorem canonOutputRange : Obligations.CanonOutputRange := by
  intro s hf hd
  obtain ⟨t, hexec, hx⟩ := exec_canon_x hf hd
  refine ⟨t, hexec, ?_⟩
  rw [hx]
  refine ⟨canonicalize_isDecimal _ _ hd.1, ?_, ?_, canonicalize_exponent_sign_zero_or_nine _ _ _,
    fun ha => (canonicalize_positive_exponent _ _ ha).1, canonicalize_exponent_sign_eq_nine_iff _⟩ <;>
    rw [canonicalize_sign]
  · split
    · exact .inl rfl
    · exact .inr rfl
  · split
    · exact iff_of_false (by decide) (not_not_intro ‹_›)
    · exact iff_of_true rfl ‹_›

/-- R120, R132: canonicalize(A, B) reads B at the mantissa positions only, and two of the parameters. -/
theorem canonicalize_congr {p q : Config} (a : Reg) {b b' : Reg} (hcursor : p.maskCursor = q.maskCursor)
    (hread : p.negExpSign = q.negExpSign) (hb : ∀ i, 3 ≤ i → i ≤ 12 → b.digit i = b'.digit i) :
    canonicalize p a b = canonicalize q a b' := by
  obtain ⟨-, h12, -⟩ := skipLeadingZeros_spec a 12 (by decide)
  rw [canonicalize, canonicalize, hcursor, hread, copyMantissa_congr _ a b b' _ _ _ h12 (by decide) hb]

/-- Settles O38: in both states X is canonicalize(A, B) (`exec_canon_x`), the same by `canonicalize_congr`. -/
theorem canonReadsOnlyAAndMantissaOfB : Obligations.CanonReadsOnlyAAndMantissaOfB := by
  intro s s' hf hf' hd hd' ha hb hcursor hread
  obtain ⟨t, hexec, hx⟩ := exec_canon_x hf hd
  obtain ⟨t', hexec', hx'⟩ := exec_canon_x hf' hd'
  refine ⟨t, t', hexec, hexec', ?_⟩
  rw [hx, hx', ha]
  exact canonicalize_congr _ hcursor hread hb

end Sys2Proof.Machine
end

section
/-! The display decoder (42_display_decoder.md). -/

namespace Sys2Proof.Machine

/-! The decimal-point operand (R64, R67) -/

theorem not_dpLegal_of_outside {dp : Nat} (h : dp < 1 ∨ 10 < dp) : ¬ dpLegal dp := by omega

/-- R64: a legal position on arg, given as a number. -/
theorem decodeDp_of_arg {arg : BitVec 4} {dp : Nat} (harg : arg.toNat = dp) (h : dpLegal dp) (k : Nat → Instr) :
    decodeDp arg k = .ok (k dp) := by
  subst harg
  exact if_pos h

/-- R61, R64: the word 0x60 + dp. -/
theorem decode_masks_word {c : Command} {dp : Nat} (h : dpLegal dp) (hc : c.cmd.toNat = 16 * 6 + dp) :
    decode c = .ok (.masks dp) := by
  obtain ⟨hop, harg⟩ := Command.fields_of_toNat hc (by omega)
  rw [decode_of_op_masks hop, decodeDp_of_arg harg h]

/-- R61, R64: the word 0x70 + dp. -/
theorem decode_display_word {c : Command} {dp : Nat} (h : dpLegal dp) (hc : c.cmd.toNat = 16 * 7 + dp) :
    decode c = .ok (.display dp) := by
  obtain ⟨hop, harg⟩ := Command.fields_of_toNat hc (by omega)
  rw [decode_of_op_display hop, decodeDp_of_arg harg h]

/-- R67: a word of MASKS or DISPLAY whose arg is no position. -/
theorem answersIllegal_of_no_such_position {c : Command} (hop : c.cmd.toNat / 16 = 6 ∨ c.cmd.toNat / 16 = 7)
    (harg : c.cmd.toNat % 16 = 0 ∨ 11 ≤ c.cmd.toNat % 16) : AnswersIllegal c :=
  illegalCommandsAnswerIllegal.1 c (.inl (.inr (.inr (.inr (.inr ⟨hop, harg⟩)))))

/-! The 15 positions (R153, R154) -/

theorem positionMask_mantissaSign (t : SegTable) (x : Reg) (dp : Nat) :
    positionMask t x dp 0 = segSign t (x.digit 13) := rfl

theorem positionMask_exponentSign (t : SegTable) (x : Reg) (dp : Nat) :
    positionMask t x dp 11 = segSign t (x.digit 2) := rfl

theorem positionMask_exponentTens (t : SegTable) (x : Reg) (dp : Nat) :
    positionMask t x dp 12 = segDigit t x dp 12 (x.digit 1) := rfl

theorem positionMask_exponentOnes (t : SegTable) (x : Reg) (dp : Nat) :
    positionMask t x dp 13 = segDigit t x dp 13 (x.digit 0) := rfl

theorem positionMask_last (t : SegTable) (x : Reg) (dp : Nat) : positionMask t x dp 14 = t.blank := rfl

/-- R154: a mantissa position of the decoded display, its digit's entry of the table with the point added at dp. -/
theorem decodeDisplay_mantissa (t : SegTable) (x : Reg) (dp : Nat) {k : Nat} (h1 : 1 ≤ k) (h10 : k ≤ 10)
    (hk : (x.digit (13 - k)).toNat ≤ 9) :
    ∃ d, t.digit[(x.digit (13 - k)).toNat]? = some d ∧
      (decodeDisplay t x dp)[k]? = some (if k = dp then d ||| t.point else d) := by
  have hk15 : k < 15 := by omega
  refine ⟨_, segDigit_getElem? t x dp k hk, ?_⟩
  rw [Vector.getElem?_eq_getElem hk15, decodeDisplay_getElem _ _ _ _ hk15, positionMask_mantissa t x dp h1 h10]

/-- Settles O40: the answer of MASKS is Decode(X, dp) (`execMasks_of_legal`), read position by position: the mantissa by
`decodeDisplay_mantissa`, the exponent digits by `segDigit_getElem?`, each other position by its own case of R154. -/
theorem masksShowX : Obligations.MasksShowX := by
  refine ⟨fun s dp hf h1 h10 => ?_, fun s dp hf hdp => ?_, fun s dp hf => exec_answers_faulted hf _,
    fun c dp h1 h10 => decode_masks_word ⟨h1, h10⟩, fun c hop => answersIllegal_of_no_such_position (.inl hop)⟩
  · refine ⟨_, _, execMasks_of_legal hf ⟨h1, h10⟩, rfl, rfl, ⟨?_, ?_, ?_, ?_, ?_, ?_⟩, rfl, rfl,
      .answer _ _⟩
    · exact (decodeDisplay_getElem _ _ _ 0 _).trans (positionMask_mantissaSign _ _ _)
    · exact fun k hk1 hk10 => decodeDisplay_mantissa _ _ _ hk1 hk10
    · exact (decodeDisplay_getElem _ _ _ 11 _).trans (positionMask_exponentSign _ _ _)
    · intro hx1
      rw [decodeDisplay_getElem, positionMask_exponentTens]
      exact segDigit_getElem? _ _ _ _ hx1
    · intro hx0
      rw [decodeDisplay_getElem, positionMask_exponentOnes]
      exact segDigit_getElem? _ _ _ _ hx0
    · exact (decodeDisplay_getElem _ _ _ 14 _).trans (positionMask_last _ _ _)
  · exact ⟨_, execMasks_of_illegal hf (not_dpLegal_of_outside hdp), .bare _ _, .answer _ _⟩

/-! DISPLAY (R158) -/

/-- R158: DISPLAY dp does what MASKS dp does on the state that CANON's steps leave. -/
theorem exec_display_eq_masks_afterCanon {s : State} (hf : s.fault = false) (hd : s.InputDigitsOk) {dp : Nat}
    (hdp : dpLegal dp) : exec (.display dp) s = exec (.masks dp) (afterCanon s) := by
  have hmasks := execMasks_of_legal (s := afterCanon s) hf hdp
  rw [afterCanon_x, afterCanon_config] at hmasks
  exact (execDisplay_of_ok hf hdp hd).trans hmasks.symm

/-- Settles O41: DISPLAY is MASKS on the state of CANON's steps (`exec_display_eq_masks_afterCanon`); CANON leaves that
state with its own response (`execCanon_of_ok`), which MASKS ignores (`exec_ignores_response`). -/
theorem displayIsCanonThenMasks : Obligations.DisplayIsCanonThenMasks := by
  refine ⟨fun s dp hf hd h1 h10 => ?_, fun s dp hf hd h1 h10 => ?_, fun s dp hf hdp => ?_,
    fun s dp hf => exec_answers_faulted hf _, fun c dp h1 h10 => decode_display_word ⟨h1, h10⟩,
    fun c hop => answersIllegal_of_no_such_position (.inr hop)⟩
  · have hmasks := execMasks_of_legal (s := afterCanon s) hf ⟨h1, h10⟩
    exact ⟨_, _, _, execCanon_of_ok hf hd, (exec_ignores_response (.masks dp) (afterCanon s) _).trans hmasks,
      (exec_display_eq_masks_afterCanon hf hd ⟨h1, h10⟩).trans hmasks, rfl, rfl, .setReg_answer _ _ _ _, rfl⟩
  · exact ⟨_, execDisplay_of_bad hf ⟨h1, h10⟩ hd, .bare _ _, fun _ => rfl, rfl⟩
  · exact ⟨_, execDisplay_of_illegal hf (not_dpLegal_of_outside hdp), .bare _ _, .answer _ _⟩

/-! The Point bit (R151, R159) -/

/-- R151: the Point bit stands in the point's own mask and in no other of a legal table. -/
theorem pointBit_of_wellFormed {t : SegTable} (ht : t.WellFormed) :
    t.point.getLsbD 7 = true ∧ t.blank.getLsbD 7 = false ∧ t.minus.getLsbD 7 = false ∧
      ∀ i : Fin 10, t.digit[i].getLsbD 7 = false := by
  obtain ⟨-, hblank, hpoint, hdigit, hminus, -⟩ := ht
  rw [hblank, hpoint]
  exact ⟨rfl, rfl, hminus, hdigit⟩

theorem segDigit_pointBit {t : SegTable} (ht : t.WellFormed) (x : Reg) (dp p : Nat) {k : Digit} (hk : k.toNat ≤ 9) :
    (segDigit t x dp p k).getLsbD 7 = false := by
  obtain ⟨-, -, -, hdigit⟩ := pointBit_of_wellFormed ht
  rw [segDigit_of_digit t x dp p (by omega)]
  exact hdigit ⟨k.toNat, by omega⟩

theorem segSign_pointBit {t : SegTable} (ht : t.WellFormed) (k : Digit) : (segSign t k).getLsbD 7 = false := by
  obtain ⟨-, hblank, hminus, -⟩ := pointBit_of_wellFormed ht
  obtain h | h := segSign_cases t k <;> rw [h]
  · exact hminus
  · exact hblank

/-- R154: a mantissa position carries the Point bit when it is dp. -/
theorem positionMask_mantissa_pointBit {t : SegTable} (ht : t.WellFormed) {x : Reg} (hx : x.IsDecimal) (dp : Nat)
    {p : Nat} (h1 : 1 ≤ p) (h10 : p ≤ 10) : (positionMask t x dp p).getLsbD 7 = true ↔ p = dp := by
  obtain ⟨hpoint, -⟩ := pointBit_of_wellFormed ht
  have hdigit := segDigit_pointBit ht x dp p (hx (13 - p) (by omega))
  rw [positionMask_mantissa t x dp h1 h10]
  by_cases hp : p = dp
  · rw [if_pos hp, BitVec.getLsbD_or, hpoint, Bool.or_true]
    exact iff_of_true rfl hp
  · rw [if_neg hp, hdigit]
    exact iff_of_false Bool.false_ne_true hp

/-- R154: no position outside the mantissa carries the Point bit. -/
theorem positionMask_outer_pointBit {t : SegTable} (ht : t.WellFormed) {x : Reg} (hx : x.IsDecimal) (dp : Nat) {p : Nat}
    (hp : p = 0 ∨ 11 ≤ p) (h15 : p < 15) : (positionMask t x dp p).getLsbD 7 = false := by
  obtain ⟨-, hblank, -⟩ := pointBit_of_wellFormed ht
  obtain rfl | rfl | rfl | rfl | rfl : p = 0 ∨ p = 11 ∨ p = 12 ∨ p = 13 ∨ p = 14 := by omega
  · rw [positionMask_mantissaSign, segSign_pointBit ht]
  · rw [positionMask_exponentSign, segSign_pointBit ht]
  · rw [positionMask_exponentTens, segDigit_pointBit ht _ _ _ (hx 1 (by decide))]
  · rw [positionMask_exponentOnes, segDigit_pointBit ht _ _ _ (hx 0 (by decide))]
  · rw [positionMask_last, hblank]

/-- R159: of the 15 positions only dp carries the Point bit. -/
theorem positionMask_pointBit_iff {t : SegTable} (ht : t.WellFormed) {x : Reg} (hx : x.IsDecimal) {dp : Nat}
    (hdp : dpLegal dp) {p : Nat} (hp : p < 15) : (positionMask t x dp p).getLsbD 7 = true ↔ p = dp := by
  by_cases hm : 1 ≤ p ∧ p ≤ 10
  · exact positionMask_mantissa_pointBit ht hx dp hm.1 hm.2
  · rw [positionMask_outer_pointBit ht hx dp (by omega) hp]
    exact iff_of_false Bool.false_ne_true (by omega)

/-- R156, R158: MASKS and DISPLAY both answer OK with the decoded display of a decimal register: X as it stands, or
canonicalize(A, B) (R131). -/
theorem exec_answers_decodeDisplay {s : State} (hf : s.fault = false) (hdec : ∀ r, (s.reg r).IsDecimal) {dp : Nat}
    (hdp : dpLegal dp) {i : Instr} (hi : i = .masks dp ∨ i = .display dp) :
    ∃ t x, exec i s = .next t ∧ x.IsDecimal ∧
      t.response = some { Response.bare .ok with masks := decodeDisplay s.config.seg x dp } := by
  obtain rfl | rfl := hi
  · exact ⟨_, _, execMasks_of_legal hf hdp, hdec .x, rfl⟩
  · exact ⟨_, _, execDisplay_of_ok hf hdp ⟨hdec .a, hdec .b⟩, canonicalize_isDecimal _ _ (hdec .a), rfl⟩

/-- Settles O42: whichever of the two commands runs, it decodes a decimal register (`exec_answers_decodeDisplay`), and
of that display's positions only dp carries the point (`positionMask_pointBit_iff`). -/
theorem exactlyOnePoint : Obligations.ExactlyOnePoint := by
  intro s dp i hf hseg hdec h1 h10 hi
  obtain ⟨t, x, hexec, hx, hresp⟩ := exec_answers_decodeDisplay hf hdec ⟨h1, h10⟩ hi
  refine ⟨t, _, hexec, hresp, rfl, fun k => ?_, ?_, ?_, ?_⟩
  · rw [Fin.getElem_fin, decodeDisplay_getElem]
    exact positionMask_pointBit_iff hseg hx ⟨h1, h10⟩ k.isLt
  · rw [decodeDisplay_getElem, positionMask_mantissaSign]
    exact segSign_cases _ _
  · rw [decodeDisplay_getElem, positionMask_exponentSign]
    exact segSign_cases _ _
  · rw [decodeDisplay_getElem, positionMask_last]

end Sys2Proof.Machine
end

section
/-! GET and SET (43_processor_state.md). -/

namespace Sys2Proof.Machine

/-! GET (R170) -/

/-- R61, R63: the word 0x10 + id(r). -/
theorem decode_get_word {c : Command} {r : RegId} (h : c.cmd.toNat = 16 * 1 + r.code.toNat) :
    decode c = .ok (.get r) := by
  obtain ⟨hop, harg⟩ := fields_of_register_word h
  rw [decode_of_op_get hop, harg, decodeReg_code]

/-- R32 to R34, R170: the words of the registers after reset. -/
theorem pack_reset (r : RegId) :
    (State.reset.reg r).pack = if r = .b then 0x00000000000099 else 0x00000000000000 := by
  rw [State.reset_reg]
  by_cases hr : r = .b
  · subst hr
    decide
  · rw [resetReg_of_ne_b hr, if_neg hr]
    decide

/-- Settles O21: the answer of GET is `execGet_of_clear`, each digit of it `Reg.extract_pack`; after reset
see `pack_reset`. -/
theorem getReturnsPackedRegister : Obligations.GetReturnsPackedRegister := by
  refine ⟨fun s r hf => ?_, fun s r hf => exec_answers_faulted hf _, fun c r h => decode_get_word h,
    fun c hop => answersIllegal_of_no_such_register (by omega),
    fun r => ⟨_, _, execGet_of_clear (s := State.reset) rfl r, rfl, pack_reset r⟩⟩
  exact ⟨_, _, execGet_of_clear hf r, rfl, rfl, fun i hi => Reg.extract_pack _ hi, rfl, rfl, .answer _ _⟩

/-! SET (R172) -/

/-- R61, R63: the word 0x20 + id(r), whatever the data. -/
theorem decode_set_word {c : Command} {r : RegId} (h : c.cmd.toNat = 16 * 2 + r.code.toNat) :
    decode c = .ok (.set r c.wdata) := by
  obtain ⟨hop, harg⟩ := fields_of_register_word h
  rw [decode_of_op_set hop, harg, decodeReg_code]

/-- Settles O22: a word of digits is unpacked and written (`execSet_of_decimal`, `Reg.digit_unpack`), one with a nibble
above 9 is refused (`execSet_of_not_decimal`). -/
theorem setWritesOrRefuses : Obligations.SetWritesOrRefuses := by
  refine ⟨fun s r w hf hw => ?_, fun s r w hf hw => ?_, fun s r w hf => exec_answers_faulted hf _,
    fun c r h => decode_set_word h, fun c hop => answersIllegal_of_no_such_register (by omega)⟩
  · have hexec := execSet_of_decimal hf r ((isDecimal_unpack_iff w).2 hw)
    refine ⟨_, hexec, .bare _ _, fun i hi => ?_, .setReg_answer _ _ _ _⟩
    rw [State.answer_reg, State.reg_setReg_self, Reg.digit_unpack w hi]
  · exact ⟨_, execSet_of_not_decimal hf r ((not_isDecimal_unpack_iff w).2 hw), .bare _ _, .answer _ _⟩

/-! The packed word and the decimal string (R171, R173) -/

/-- Settles O28: GET answers the register packed and GETS answers it formatted; place 13-k of the one
(`Reg.extract_pack`) and byte k of the other (`formatByte_toNat`) show the same digit. -/
theorem getAndGetsAgree : Obligations.GetAndGetsAgree := by
  intro s r hf hdec
  refine ⟨_, _, _, _, execGet_of_clear hf r, execGets_of_clear hf r, rfl, rfl, fun k => ?_⟩
  have hplace : 13 - k.val < 14 := by omega
  rw [Fin.getElem_fin, format_getElem _ _ k.isLt, formatByte_toNat (hdec _ hplace), ← Reg.extract_pack _ hplace]

/-- R65, R101: Parse of a decimal string and the unpacking of the word with the same digits give one register. -/
theorem parse_eq_unpack {str : List Byte} {w : PackedWord} (hstr : DecimalString str)
    (hw : ∀ k < 14, (nibble w (13 - k)).toNat = (str.getD k 0).toNat - 0x30) : parse str = some (Reg.unpack w) := by
  obtain ⟨v, hv⟩ := Option.isSome_iff_exists.1 ((parse_isSome_iff str).2 hstr)
  have hvw : v = Reg.unpack w := Reg.ext_digit fun i hi => by
    have hback : 13 - (13 - i) = i := by omega
    have hparse := parse_digit_toNat hv (k := 13 - i) (by omega)
    have hword := hw (13 - i) (by omega)
    rw [hback] at hparse hword
    rw [Reg.digit_unpack w hi]
    exact BitVec.eq_of_toNat_eq (hparse.trans hword.symm)
  rw [hv, hvw]

/-- Settles O29: with STAT.FAULT set both commands answer FAULTED (`exec_of_fault`); with it clear both write the same
register (`parse_eq_unpack`), which is decimal because Parse answered it (`parse_isDecimal`). -/
theorem setAndSetsAgree : Obligations.SetAndSetsAgree := by
  intro s r str w hstr hw
  cases hf : s.fault with
  | true => rw [exec_of_fault hf, exec_of_fault hf]
  | false =>
    have hparse := parse_eq_unpack hstr hw
    exact (execSets_of_some hf r hparse).trans (execSet_of_decimal hf r (parse_isDecimal hparse)).symm

end Sys2Proof.Machine
end

section
/-! Errors, faults and their priority (60_exceptions.md). -/

namespace Sys2Proof.Machine

/-! A command at the step (R200, R207) -/

/-- R205: the step on any command, legal or not, with STAT.FAULT set. -/
theorem step_command_of_fault {s : State} {c : Command} {rest : List HostInput} (hf : s.fault = true)
    (hin : s.inputs = .command c :: rest) :
    step s = .next (State.answer { s with inputs := rest } (Response.bare .faulted)) := by
  rw [step_command hin]
  cases decode c with
  | ok i => exact exec_of_fault (s := { s with inputs := rest }) hf i
  | error e => exact unlessFaulted_of_fault (s := { s with inputs := rest }) hf _

/-- R207: what a step on a command can do, in the order of the rule's checks: answer FAULTED, refuse the word, or run
the instruction the word decodes to, with one of that instruction's outcomes. -/
theorem step_command_cases {s : State} {c : Command} {rest : List HostInput} (hin : s.inputs = .command c :: rest) :
    (s.fault = true ∧ step s = .next (State.answer { s with inputs := rest } (Response.bare .faulted))) ∨
    (s.fault = false ∧ IllegalWord c.cmd ∧
      step s = .next (State.answer { s with inputs := rest } (Response.bare .illegal))) ∨
    (s.fault = false ∧ ¬ IllegalWord c.cmd ∧ ∃ i p t, decode c = .ok i ∧
      CommandOutcome { s with inputs := rest } i p t ∧ step s = .next (t.answer p)) := by
  obtain hf | hf := Bool.eq_false_or_eq_true s.fault
  · exact .inl ⟨hf, step_command_of_fault hf hin⟩
  by_cases hword : IllegalWord c.cmd
  · exact .inr (.inl ⟨hf, hword, step_illegal hin hf (.inl hword)⟩)
  · obtain ⟨i, hdec, -⟩ := decode_of_not_illegalWord hword
    obtain ⟨p, t, hout, hexec⟩ := exec_outcome (s := { s with inputs := rest }) hf i
    exact .inr (.inr ⟨hf, hword, i, p, t, hdec, hout, (stepRunsDecodedCommand s c rest i hin hdec).trans hexec⟩)

/-- Settles O11: a command is answered FAULTED and nothing else happens (`step_command_of_fault`); the flag is cleared
by nothing but the reset signal (`faultFlagLife`), and the reset signal clears it (`step_resetSignal`). -/
theorem faultedAnswersEveryCommand : Obligations.FaultedAnswersEveryCommand := by
  refine ⟨fun s c rest hf hin => ⟨_, step_command_of_fault hf hin, .bare _ _, .answer _ _⟩, fun s t hf hstep =>
    ⟨(faultFlagLife s t hstep).2 hf, ?_⟩⟩
  rintro ⟨rest, hin⟩
  cases (step_resetSignal hin).symm.trans hstep
  rfl

/-! The status and its cause (R207) -/

/-- R207: what each status of a decoded command says of its ports and of A and B. -/
theorem CommandOutcome.status_cases {s t : State} {c : Command} {i : Instr} {p : Response}
    (h : CommandOutcome s i p t) (hdec : decode c = .ok i) :
    (p.status = .ok ∧ ¬ IllegalData c ∧ (c.cmd.toNat / 16 = 4 → DecimalString c.sdata) ∧
      (c.cmd.toNat / 16 = 5 ∨ c.cmd.toNat / 16 = 7 → s.InputDigitsOk)) ∨
    (p.status = .illegal ∧ IllegalData c) ∨
    (p.status = .formatError ∧ c.cmd.toNat / 16 = 4 ∧ ¬ DecimalString c.sdata) ∨
    (p.status = .invariantViolation ∧ (c.cmd.toNat / 16 = 5 ∨ c.cmd.toNat / 16 = 7) ∧ ¬ s.InputDigitsOk) := by
  have hcases := decode_cases hdec
  rw [Command.op_toNat] at hcases
  obtain ⟨hop, r, -, rfl⟩ | ⟨hop, r, -, rfl⟩ | ⟨hop, r, -, rfl⟩ | ⟨hop, r, -, rfl⟩ | ⟨hop, -, rfl⟩ | ⟨hop, hdp, rfl⟩ |
    ⟨hop, hdp, rfl⟩ := hcases
  · cases h with
    | get => exact .inl ⟨rfl, by omega, by omega, by omega⟩
  · cases h with
    | set _ _ hw =>
      exact .inl ⟨rfl, fun hdata => (not_isDecimal_unpack_iff _).2 hdata.2 hw, by omega, by omega⟩
    | setIllegal _ _ hw => exact .inr (.inl ⟨rfl, hop, (not_isDecimal_unpack_iff _).1 hw⟩)
  · cases h with
    | gets => exact .inl ⟨rfl, by omega, by omega, by omega⟩
  · cases h with
    | sets _ _ v hv =>
      exact .inl ⟨rfl, by omega, fun _ => (parse_isSome_iff _).1 (Option.isSome_of_eq_some hv), by omega⟩
    | formatError _ _ hnone => exact .inr (.inr (.inl ⟨rfl, hop, (parse_eq_none_iff _).1 hnone⟩))
  · cases h with
    | canon hd => exact .inl ⟨rfl, by omega, by omega, fun _ => hd⟩
    | canonViolation hbad => exact .inr (.inr (.inr ⟨rfl, .inl hop, hbad⟩))
  · cases h with
    | masks => exact .inl ⟨rfl, by omega, by omega, by omega⟩
    | masksIllegal _ hno => exact absurd hdp hno
  · cases h with
    | display _ _ hd => exact .inl ⟨rfl, by omega, by omega, fun _ => hd⟩
    | displayIllegal _ hno => exact absurd hdp hno
    | displayViolation _ _ hbad => exact .inr (.inr (.inr ⟨rfl, .inr hop, hbad⟩))

/-- R203, R207: an outcome that answers ILLEGAL is no invariant violation, so it leaves STAT.FAULT. -/
theorem CommandOutcome.fault_eq_of_illegal {s t : State} {i : Instr} {p : Response} (h : CommandOutcome s i p t)
    (hp : p.status = .illegal) : t.fault = s.fault := by
  obtain hkeep | ⟨-, hviol, -⟩ := h.fault_eq_or_violation
  · exact hkeep
  · exact absurd (hp.symm.trans hviol) (by decide)

/-- Settles O12: the first two checks are the step's (`step_command_cases`); of a command that runs, each status has
its own cause (`CommandOutcome.status_cases`), and the causes exclude each other by opcode. -/
theorem statusPriority : Obligations.StatusPriority := by
  intro s c rest hin
  obtain ⟨hf, hstep⟩ | ⟨hf, hword, hstep⟩ | ⟨hf, hword, i, p, t, hdec, hout, hstep⟩ := step_command_cases hin
  · exact ⟨_, _, hstep, rfl, fun _ => rfl, by simp [hf], by simp [hf], by simp [hf], fun _ => rfl⟩
  · exact ⟨_, _, hstep, rfl, by simp [hf], fun _ _ => rfl, fun _ hn => absurd hword hn, fun _ hn => absurd hword hn,
      fun _ => rfl⟩
  · refine ⟨_, p, hstep, rfl, by simp [hf], fun _ hn => absurd hn hword, fun _ _ hdata => ?_, fun _ _ hdata => ?_,
      hout.fault_eq_of_illegal⟩
    · obtain ⟨-, hno, -⟩ | ⟨hp, -⟩ | ⟨-, hop, -⟩ | ⟨-, hop, -⟩ := hout.status_cases hdec
      · exact absurd hdata hno
      · exact hp
      · exact absurd hdata.1 (by omega)
      · exact absurd hdata.1 (by omega)
    · obtain ⟨hp, -, hstr, hdigits⟩ | ⟨-, hbad⟩ | ⟨hp, hop, hbad⟩ | ⟨hp, hop, hbad⟩ := hout.status_cases hdec
      · exact ⟨fun h hn => absurd (hstr h) hn, fun h hn => absurd (hdigits h) hn, fun _ _ => hp⟩
      · exact absurd hbad hdata
      · exact ⟨fun _ _ => hp, by omega, fun hstr _ => absurd (hstr hop) hbad⟩
      · exact ⟨by omega, fun _ _ => hp, fun _ hdigits => absurd (hdigits hop) hbad⟩

/-- Settles O13: the codes are read off `Status.code`; every command is answered (`portsAreFixedByOpcode`), and no
status has a code above 4 (`Status.code_lt`). -/
theorem statusCodes : Obligations.StatusCodes := by
  refine ⟨rfl, rfl, rfl, rfl, rfl, fun s c rest hin => ?_⟩
  obtain ⟨t, p, hstep, hresp, -⟩ := portsAreFixedByOpcode.2 s c rest hin
  exact ⟨t, p, hstep, hresp, p.status.code_lt⟩

/-! What an error leaves (R203, R206) -/

/-- R203, R206: an error changes nothing, or is an invariant violation and sets STAT.FAULT. -/
theorem CommandOutcome.eq_or_violation_of_error {s t : State} {i : Instr} {p : Response} (h : CommandOutcome s i p t)
    (hp : p.status ≠ .ok) : t = s ∨ t = { s with fault := true } ∧ p.status = .invariantViolation := by
  cases h with
  | setIllegal | masksIllegal | displayIllegal | formatError => exact .inl rfl
  | canonViolation | displayViolation => exact .inr ⟨rfl, rfl⟩
  | _ => exact absurd rfl hp

/-- R203, R206: the step on a command that ends in an error does nothing but take the command, answer, and, for an
invariant violation, set STAT.FAULT. -/
theorem step_error_cases {s t : State} {c : Command} {rest : List HostInput} {p : Response}
    (hin : s.inputs = .command c :: rest) (hstep : step s = .next t) (hresp : t.response = some p)
    (hp : p.status ≠ .ok) :
    t = State.answer { s with inputs := rest } p ∨
    t = State.answer { s with inputs := rest, fault := true } p ∧ p.status = .invariantViolation := by
  obtain ⟨-, h⟩ | ⟨-, -, h⟩ | ⟨-, -, i, q, u, -, hout, h⟩ := step_command_cases hin <;>
    cases h.symm.trans hstep <;> cases hresp
  · exact .inl rfl
  · exact .inl rfl
  · obtain rfl | ⟨rfl, hviol⟩ := hout.eq_or_violation_of_error hp
    · exact .inl rfl
    · exact .inr ⟨rfl, hviol⟩

/-- R206: a step on a command does not read the response to an earlier one. -/
theorem step_command_ignores_response {s : State} {c : Command} {rest : List HostInput}
    (hin : s.inputs = .command c :: rest) (earlier : Option Response) :
    step { s with response := earlier } = step s := by
  rw [step_command hin, step_command (s := { s with response := earlier }) hin]
  cases decode c with
  | ok i => exact exec_ignores_response i { s with inputs := rest } earlier
  | error e => rfl

/-- Settles O14: what an error leaves is one of the two states of `step_error_cases`; for the earlier response see
`step_command_ignores_response`. -/
theorem errorsArePrecise : Obligations.ErrorsArePrecise := by
  refine fun s c rest hin => ⟨fun t p hstep hresp hp => ?_, step_command_ignores_response hin⟩
  obtain rfl | ⟨rfl, hviol⟩ := step_error_cases hin hstep hresp hp
  · exact ⟨fun _ => rfl, rfl, rfl, fun _ => rfl⟩
  · exact ⟨fun _ => rfl, rfl, rfl, fun hn => absurd hviol hn⟩

/-! An invariant violation in DISPLAY (R158, R203) -/

/-- Settles O16: the digit makes the check fail (`not_inputDigitsOk_of_digit`, `execDisplay_of_bad`), which leaves
STAT.FAULT set, so every command after it answers FAULTED (`exec_of_fault`). -/
theorem displayInvariantViolation : Obligations.DisplayInvariantViolation := by
  intro s dp hf h1 h10 hbad
  exact ⟨_, execDisplay_of_bad hf ⟨h1, h10⟩ (not_inputDigitsOk_of_digit hbad), .bare _ _, rfl, fun _ => rfl, rfl, rfl,
    fun i => ⟨_, exec_of_fault rfl i, .bare _ _, rfl⟩⟩

end Sys2Proof.Machine
end

section
/-! Reset and hazards (70_reset_and_hazards.md). -/

namespace Sys2Proof.Machine

/-! Reset (R240, R243) -/

/-- R124 to R127: of an A that is all zeros the canonical form is all zeros, wherever the stop mask ends the copy: a digit
copied is a digit of A, one not copied is the zero it starts as (R123), and the exponent is positive. -/
theorem canonicalize_zero (p : Config) (b : Reg) : canonicalize p Reg.zero b = Reg.zero := by
  obtain ⟨s0, n, -, hhigh⟩ := canonicalize_high_digits p Reg.zero b
  obtain ⟨h2, h1, h0⟩ := canonicalize_positive_exponent p b (Reg.digit_zero 2)
  refine Reg.ext_digit fun i hi => ?_
  match i with
  | 0 => exact h0
  | 1 => exact h1
  | 2 => exact h2.trans (Reg.digit_zero 2).symm
  | j + 3 => simp [hhigh (j + 3) hi (Nat.le_add_left 3 j), digit_initC _ hi]

/-- Settles O20: A and B reset to digits (`isDecimal_reset`), so CANON writes canonicalize(A, B) into X, and A resets to
zeros (`canonicalize_zero`). -/
theorem canonAfterResetIsZero : Obligations.CanonAfterResetIsZero := by
  intro cfg
  have hexec := execCanon_of_ok (s := { State.reset with config := cfg }) rfl ⟨isDecimal_reset .a, isDecimal_reset .b⟩
  refine ⟨_, hexec, .bare _ _, fun i _ => ?_⟩
  rw [State.answer_reg, afterCanon_x]
  change (canonicalize cfg Reg.zero _).digit i = 0
  rw [canonicalize_zero, Reg.digit_zero]

/-- Settles O19: the step on the reset signal is `step_resetSignal`. -/
theorem resetSignalRestoresBlock : Obligations.ResetSignalRestoresBlock :=
  fun _ _ hinputs => ⟨_, step_resetSignal hinputs, fun _ => rfl, rfl, rfl, rfl⟩

/-! Stale display (R252) -/

/-- R156: what MASKS answers depends on X, STAT.FAULT and the parameters only. -/
theorem exec_masks_congr {s t : State} (hfault : t.fault = s.fault) (hconfig : t.config = s.config)
    (hx : t.reg .x = s.reg .x) (dp : Nat) :
    ∃ p, exec (.masks dp) s = .next (s.answer p) ∧ exec (.masks dp) t = .next (t.answer p) := by
  cases hf : s.fault with
  | true => exact ⟨_, exec_of_fault hf _, exec_of_fault (hfault.trans hf) _⟩
  | false =>
    by_cases hdp : dpLegal dp
    · have ht := execMasks_of_legal (hfault.trans hf) hdp
      rw [hconfig, hx] at ht
      exact ⟨_, execMasks_of_legal hf hdp, ht⟩
    · exact ⟨_, execMasks_of_illegal hf hdp, execMasks_of_illegal (hfault.trans hf) hdp⟩

/-- R28, R50: a command that cannot write X does not canonicalize, so it leaves STAT.FAULT as it was. -/
theorem exec_fault_eq_of_x_not_written {i : Instr} {s t : State} (h : exec i s = .next t) (hx : .x ∉ writtenRegs i) :
    t.fault = s.fault := by
  obtain hkeep | ⟨-, p, -, -, rfl | ⟨dp, rfl⟩⟩ := exec_fault_eq_or_violation h
  · exact hkeep
  · exact absurd (List.mem_singleton_self _) hx
  · exact absurd (List.mem_singleton_self _) hx

/-- R30: no command changes the parameters. -/
theorem exec_config_eq {i : Instr} {s t : State} (h : exec i s = .next t) : t.config = s.config := by
  obtain ⟨u, hu, -, hconfig⟩ := exec_completes i s
  cases hu.symm.trans h
  exact hconfig

/-- Settles O44: SET and SETS of another register cannot write X, so they keep X (`exec_reg_eq_of_not_written`) and
STAT.FAULT (`exec_fault_eq_of_x_not_written`), all that MASKS reads but the parameters (`exec_masks_congr`). -/
theorem displayStaysStale : Obligations.DisplayStaysStale := by
  intro s t i r dp hr hi hexec
  have hwritten : .x ∉ writtenRegs i := by
    obtain ⟨w, rfl⟩ | ⟨str, rfl⟩ := hi <;> exact List.mem_singleton.not.2 hr.symm
  have hx := exec_reg_eq_of_not_written hexec hwritten
  obtain ⟨p, hs, ht⟩ :=
    exec_masks_congr (exec_fault_eq_of_x_not_written hexec hwritten) (exec_config_eq hexec) hx dp
  exact ⟨s.answer p, t.answer p, hs, ht, rfl, hx⟩

/-! Lost test value (R254) -/

/-- R121, R130: CANON's steps write X whole and do not read it. -/
theorem afterCanon_setReg_x (s : State) (v : Reg) : afterCanon (s.setReg .x v) = afterCanon s := by
  rw [afterCanon, State.setReg_setReg, State.reg_setReg_of_ne (by decide), State.reg_setReg_of_ne (by decide),
    State.setReg_config, afterCanon]

/-- Settles O39: CANON does not read the answer that SET left (`exec_ignores_response`) nor the X it wrote
(`afterCanon_setReg_x`), and X is no operand of the check of R122. -/
theorem canonOverwritesTestValue : Obligations.CanonOverwritesTestValue := by
  intro s w hf hd hw
  have hset := execSet_of_decimal hf .x ((isDecimal_unpack_iff w).2 hw)
  have hcanon := execCanon_of_ok (s := s.setReg .x (Reg.unpack w)) hf hd
  rw [afterCanon_setReg_x] at hcanon
  exact ⟨_, _, _, hset, (exec_ignores_response .canon (s.setReg .x (Reg.unpack w)) _).trans hcanon,
    execCanon_of_ok hf hd, rfl⟩

end Sys2Proof.Machine
end

section
/-! The model's own choices: the idle step (assumption 5) and the default segment table (assumption 11). -/

namespace Sys2Proof.Machine

/-- Settles O8: of the four things a step can do (`step_cases`), all but the idle step take an input that is there. -/
theorem stepWithoutInputIdles : Obligations.StepWithoutInputIdles := by
  intro s hnone
  obtain ⟨-, hidle⟩ | ⟨rest, hin, -⟩ | ⟨c, rest, i, hin, -, -⟩ | ⟨c, rest, e, hin, -, -⟩ := step_cases s
  · exact hidle
  all_goals exact nomatch hnone.symm.trans hin

/-- Settles O43: the entries are those of `defaultSegTable`, which the reset state carries; that the table meets R151 is
part of the invariant at reset (`resetHasInvariant`). -/
theorem defaultSegmentTable : Obligations.DefaultSegmentTable :=
  ⟨rfl, rfl, rfl, rfl, resetHasInvariant.seg⟩

end Sys2Proof.Machine
end
